-- ==== Sys2Proof/Word.lean ====
section
/-! DEFINITION. The words of the block: the byte, the opcode byte, the identifier, and the number of bits a register needs. -/

namespace Sys2Proof

/-- One payload byte (10_state.md R21). -/
abbrev Byte := BitVec 8

/-- The opcode byte `op[7:0]` (30_encoding.md R101). -/
abbrev Opcode := BitVec 8

/-- The 29-bit identifier of a frame (10_state.md R21). -/
abbrev Identifier := BitVec 29

/-- The eight payload bytes of a frame, `data[0]` to `data[7]`, always present (10_state.md R21). -/
abbrev Payload := Vector Byte 8

/-- A payload length, an integer from 0 to 8: a longer one does not exist (10_state.md R21). -/
abbrev PayloadLength := Fin 9

/-- How many bits hold every number from 0 to `n`: `ceil(log2(n + 1))` (00_scope.md R7). -/
def bitLength (n : Nat) : Nat := if n = 0 then 0 else Nat.log2 n + 1

end Sys2Proof
end

