-- ==== Sys2Proof/Syntax.lean ====
section
/-! DEFINITION. The two frame records, the operations of the block (one constructor per row of the opcode table), and the
words they are presented as. -/

namespace Sys2Proof

/-- The canonical Frame (10_state.md R20, R21): a plain value of five fields.
Two Frames are equal when all five fields are, every payload byte included (R22). -/
structure Frame where
  id   : Identifier
  len  : PayloadLength
  data : Payload
  /-- Remote-request flag. -/
  rtr  : Bool
  /-- Extended-identifier flag. -/
  ext  : Bool
deriving DecidableEq, Repr, Inhabited

/-- The peripheral's frame record (42_frame_translation.md R180). -/
structure NativeFrame where
  id       : Identifier
  /-- Data length. -/
  dlc      : PayloadLength
  data     : Payload
  /-- Remote mode bit: true is a remote request. -/
  remote   : Bool
  /-- Extended mode bit: true is a 29-bit identifier. -/
  extended : Bool
deriving DecidableEq, Repr, Inhabited

/-- An operation as it is presented on a port: the opcode byte and the operand word (30_encoding.md R100, R101).
Where the format has no operand word, `arg` is 0. -/
structure OpWord where
  op  : Opcode
  arg : Nat
deriving DecidableEq, Repr

/-- Why a presented word is no operation. -/
inductive DecodeError where
  /-- The opcode is in a reserved range (30_encoding.md R113). -/
  | reservedOpcode
  /-- A `len` or `dlc` pattern of 9 to 15 (30_encoding.md R104, R115). -/
  | reservedLength
  /-- Operand bits above those the format defines, which do not exist (30_encoding.md R102). -/
  | operandTooWide
deriving DecidableEq, Repr

/-- The 39 operations and events (30_encoding.md R110, R111, R112), each with the fields of its operand word. -/
inductive Instr where
  -- unit RB (R110)
  | rbPut (frame : Frame)
  | rbGet
  | rbClear
  | rbAvailable
  | rbSize
  | rbFreeSlots
  | rbFull
  | rbEmpty
  | rbPuts
  | rbGets
  | rbOverflows
  | rbHwm
  -- unit FA (R111)
  | faBegin (pollingMode : Bool) (busInterface : Nat)
  | faAvailable
  | faGetNextMessage
  | faSendMessage (frame : Frame) (remoteFlag extendedFlag prioValid : Bool) (priority : Nat)
  | faSendMessageNoUpdate (frame : Frame)
  | faSetNumBuffers (rxCount txCount : Nat)
  | faSetDebug (enabled : Bool)
  | faReset
  | faPrintStatus
  | faSent
  | faReceived
  | faPuts
  | faGets
  | faOverflows
  | faHwm
  -- unit EV (R112)
  | evRxComplete (native : NativeFrame)
  | evTxComplete
  | evErrWarning
  | evErrPassive
  | evErrBusOff
  | evBusRecovery
  | evMailboxOverrun
  | evBusLock
  | evChannelError
  | evTxAbort
  | evGlobalError
  | evFifoEmpty
deriving DecidableEq, Repr

end Sys2Proof
end

