-- ==== Sys2Proof/Config.lean ====
section
/-! DEFINITION. What an instance of the block fixes at launch, and the free values: what the spec leaves open and gives no
value to. -/

namespace Sys2Proof

/-- The open parameters of an instance (00_scope.md R7, R8, R10, R11, R14): arguments of the model, fixed at launch.
They are plain data, carried in State and written by no step, so a statement about every state holds for every instance.
DESIGN CHOICE (log 1). -/
structure Config where
  /-- CAP_MAX: the number of slots built (R7). -/
  capMax          : Nat
  /-- CNT_W: the width of each cumulative counter (R8). -/
  cntW            : Nat
  /-- PRIO_W: the width of the `priority` operand (R10). -/
  prioW           : Nat
  /-- DEFAULT_PRIORITY: the priority used when the operand is not supplied (R10). -/
  defaultPriority : Nat
  /-- BUSIF_W: the width of the `busInterface` operand (R11). -/
  busIfW          : Nat
  /-- Observer: whether the transmit observer is present (R14). -/
  observer        : Bool
deriving DecidableEq, Repr

/-- SIZE_W, the width of `size`, `hwm` and a capacity: `ceil(log2(CAP_MAX + 1))` (00_scope.md R7). -/
def Config.sizeW (c : Config) : Nat := bitLength c.capMax

/-- IDX_W, the width of `head` and `tail`: `max(1, ceil(log2(CAP_MAX)))` (00_scope.md R7). -/
def Config.idxW (c : Config) : Nat := max 1 (bitLength (c.capMax - 1))

/-- CAP_DEFAULT (00_scope.md R7; 10_state.md R41). -/
def Config.capDefault : Nat := 16

/-- FRAME_W, the width of a packed frame (00_scope.md R9). -/
def Config.frameW : Nat := 99

/-- The test instance T of 95_test_vectors.md section 0, with no observer.
DESIGN CHOICE: the parameters State.reset carries (log 1). -/
def Config.instanceT : Config :=
  { capMax := 255, cntW := 32, prioW := 4, defaultPriority := 0xB, busIfW := 8, observer := false }

/-- BITRATE (00_scope.md R11): the value `begin` passes to `configureBitrate`; no rule reads it.
Free value (log 2). -/
opaque Config.bitrate : Nat

/-- Stamp (00_scope.md R12; 93_implementation_defined.md U14): the identifier the upstream protocol gives a frame and a
priority. Uninterpreted (log 3). -/
opaque Config.stamp : Frame → Nat → Identifier

/-- The peripheral's answer to Start() where the environment has not said it (00_scope.md R13, U13). Free value (log 4). -/
opaque Config.startAnswer : Nat → Bool

/-- The peripheral's answer to Submit() where the environment has not said it (00_scope.md R13, U13). Free value (log 4). -/
opaque Config.submitAnswer : Nat → Bool

/-- Whether the producer goes first when both agents present and the environment has not said who does
(20_memory.md R81, U12). Free value (log 5). -/
opaque Config.producerFirst : Nat → Bool

/-- What a slot holds that nothing has written since construction (10_state.md R24, U10). Free value (log 9). -/
opaque Config.unwrittenSlot : Nat → Frame

end Sys2Proof
end

