-- ==== Sys2Proof/WellFormed.lean ====
section
/-! DEFINITION. When a term of Instr is an operation that can be presented: every operand fits the bits its format gives it
(30_encoding.md R102, R106). Frames need no check: a Frame with a longer payload does not exist (10_state.md R21). -/

namespace Sys2Proof

/-- Every operand of the operation fits its field. -/
def Instr.wellFormed (c : Config) (i : Instr) : Bool :=
  match i with
  | .faBegin _ busInterface => decide (busInterface < 2 ^ c.busIfW)
  | .faSendMessage _ _ _ _ priority => decide (priority < 2 ^ c.prioW)
  | .faSetNumBuffers rxCount txCount => decide (rxCount < 2 ^ c.sizeW) && decide (txCount < 2 ^ c.sizeW)
  | .rbPut _ => true
  | .rbGet => true
  | .rbClear => true
  | .rbAvailable => true
  | .rbSize => true
  | .rbFreeSlots => true
  | .rbFull => true
  | .rbEmpty => true
  | .rbPuts => true
  | .rbGets => true
  | .rbOverflows => true
  | .rbHwm => true
  | .faAvailable => true
  | .faGetNextMessage => true
  | .faSendMessageNoUpdate _ => true
  | .faSetDebug _ => true
  | .faReset => true
  | .faPrintStatus => true
  | .faSent => true
  | .faReceived => true
  | .faPuts => true
  | .faGets => true
  | .faOverflows => true
  | .faHwm => true
  | .evRxComplete _ => true
  | .evTxComplete => true
  | .evErrWarning => true
  | .evErrPassive => true
  | .evErrBusOff => true
  | .evBusRecovery => true
  | .evMailboxOverrun => true
  | .evBusLock => true
  | .evChannelError => true
  | .evTxAbort => true
  | .evGlobalError => true
  | .evFifoEmpty => true

end Sys2Proof
end

