-- ==== Sys2Proof/Decode.lean ====
section
/-! DEFINITION. The encodings: the packed frames, the decoder (total, rejecting by name) and the encoder, both from the tables of
30_encoding.md. -/

namespace Sys2Proof

/-- The field of `n` bits of a word from bit `lo` up, `w[lo+n-1:lo]` (00_scope.md R15). -/
def field (w lo n : Nat) : Nat := w / 2 ^ lo % 2 ^ n

/-- Bit `i` of a word, `w[i]` (00_scope.md R15). -/
def bitAt (w i : Nat) : Bool := field w i 1 == 1

/-- `data[i]` in bits `[8i+7 : 8i]` (30_encoding.md R104; 20_memory.md R75). -/
def payloadWord (d : Payload) : Nat :=
  d[0].toNat + d[1].toNat * 2 ^ 8 + d[2].toNat * 2 ^ 16 + d[3].toNat * 2 ^ 24 +
    d[4].toNat * 2 ^ 32 + d[5].toNat * 2 ^ 40 + d[6].toNat * 2 ^ 48 + d[7].toNat * 2 ^ 56

/-- The payload bytes of a word, `data[i]` from bits `[8i+7 : 8i]` (30_encoding.md R104). -/
def payloadOf (w : Nat) : Payload := Vector.ofFn fun i => BitVec.ofNat 8 (field w (8 * i.val) 8)

/-- The 99-bit layout of R104: payload `[63:0]`, length `[67:64]`, identifier `[96:68]`, remote `[97]`, extended `[98]`. -/
def frameWord (id : Identifier) (len : PayloadLength) (data : Payload) (remote extended : Bool) : Nat :=
  payloadWord data + len.val * 2 ^ 64 + id.toNat * 2 ^ 68 + remote.toNat * 2 ^ 97 + extended.toNat * 2 ^ 98

/-- The packed canonical Frame (30_encoding.md R104). -/
def packFrame (f : Frame) : Nat := frameWord f.id f.len f.data f.rtr f.ext

/-- The packed native frame, in the same layout (30_encoding.md R105; 42_frame_translation.md R181). -/
def packNative (n : NativeFrame) : Nat := frameWord n.id n.dlc n.data n.remote n.extended

/-- The Frame of a packed word; none where the length pattern is 9 to 15 (30_encoding.md R104). -/
def unpackFrame (w : Nat) : Option Frame :=
  if h : field w 64 4 < 9 then
    some { id := BitVec.ofNat 29 (field w 68 29), len := ⟨field w 64 4, h⟩, data := payloadOf w,
           rtr := bitAt w 97, ext := bitAt w 98 }
  else none

/-- The native frame of a packed word; none where the length pattern is 9 to 15 (30_encoding.md R105, R115). -/
def unpackNative (w : Nat) : Option NativeFrame :=
  if h : field w 64 4 < 9 then
    some { id := BitVec.ofNat 29 (field w 68 29), dlc := ⟨field w 64 4, h⟩, data := payloadOf w,
           remote := bitAt w 97, extended := bitAt w 98 }
  else none

/-- Formats N, G, B and Q have no operand word (30_encoding.md R102). -/
def noOperand (i : Instr) (arg : Nat) : Except DecodeError Instr :=
  if arg = 0 then .ok i else .error .operandTooWide

/-- An operand word of exactly `w` bits (30_encoding.md R102). -/
def operandOf (w arg : Nat) (i : Except DecodeError Instr) : Except DecodeError Instr :=
  if arg < 2 ^ w then i else .error .operandTooWide

/-- A packed Frame in `arg[98:0]`, for the operation `k` makes of it. -/
def frameOperand (arg : Nat) (k : Frame → Instr) : Except DecodeError Instr :=
  match unpackFrame arg with
  | some f => .ok (k f)
  | none => .error .reservedLength

/-- A packed native frame in `arg[98:0]`, for the operation `k` makes of it. -/
def nativeOperand (arg : Nat) (k : NativeFrame → Instr) : Except DecodeError Instr :=
  match unpackNative arg with
  | some n => .ok (k n)
  | none => .error .reservedLength

/-- The decoder: the opcode maps of 30_encoding.md R110, R111, R112 and the operand words of R102, R106.
Total; every other opcode is reserved (R113). -/
def decode (c : Config) (w : OpWord) : Except DecodeError Instr :=
  match w.op.toNat with
  | 0x00 => operandOf 99 w.arg (frameOperand w.arg .rbPut)
  | 0x01 => noOperand .rbGet w.arg
  | 0x02 => noOperand .rbClear w.arg
  | 0x03 => noOperand .rbAvailable w.arg
  | 0x04 => noOperand .rbSize w.arg
  | 0x05 => noOperand .rbFreeSlots w.arg
  | 0x06 => noOperand .rbFull w.arg
  | 0x07 => noOperand .rbEmpty w.arg
  | 0x08 => noOperand .rbPuts w.arg
  | 0x09 => noOperand .rbGets w.arg
  | 0x0A => noOperand .rbOverflows w.arg
  | 0x0B => noOperand .rbHwm w.arg
  | 0x40 => operandOf (1 + c.busIfW) w.arg (.ok (.faBegin (bitAt w.arg 0) (w.arg / 2)))
  | 0x41 => noOperand .faAvailable w.arg
  | 0x42 => noOperand .faGetNextMessage w.arg
  | 0x43 => operandOf (102 + c.prioW) w.arg (frameOperand w.arg fun f =>
      .faSendMessage f (bitAt w.arg 99) (bitAt w.arg 100) (bitAt w.arg 101) (w.arg / 2 ^ 102))
  | 0x44 => operandOf 99 w.arg (frameOperand w.arg .faSendMessageNoUpdate)
  | 0x45 => operandOf (2 * c.sizeW) w.arg
      (.ok (.faSetNumBuffers (w.arg % 2 ^ c.sizeW) (w.arg / 2 ^ c.sizeW)))
  | 0x46 => operandOf 1 w.arg (.ok (.faSetDebug (bitAt w.arg 0)))
  | 0x47 => noOperand .faReset w.arg
  | 0x48 => noOperand .faPrintStatus w.arg
  | 0x49 => noOperand .faSent w.arg
  | 0x4A => noOperand .faReceived w.arg
  | 0x4B => noOperand .faPuts w.arg
  | 0x4C => noOperand .faGets w.arg
  | 0x4D => noOperand .faOverflows w.arg
  | 0x4E => noOperand .faHwm w.arg
  | 0x80 => operandOf 99 w.arg (nativeOperand w.arg .evRxComplete)
  | 0x81 => noOperand .evTxComplete w.arg
  | 0x82 => noOperand .evErrWarning w.arg
  | 0x83 => noOperand .evErrPassive w.arg
  | 0x84 => noOperand .evErrBusOff w.arg
  | 0x85 => noOperand .evBusRecovery w.arg
  | 0x86 => noOperand .evMailboxOverrun w.arg
  | 0x87 => noOperand .evBusLock w.arg
  | 0x88 => noOperand .evChannelError w.arg
  | 0x89 => noOperand .evTxAbort w.arg
  | 0x8A => noOperand .evGlobalError w.arg
  | 0x8B => noOperand .evFifoEmpty w.arg
  | _ => .error .reservedOpcode

/-- The opcode byte of an operation (30_encoding.md R110, R111, R112). -/
def opcodeOf (i : Instr) : Opcode :=
  match i with
  | .rbPut _ => 0x00
  | .rbGet => 0x01
  | .rbClear => 0x02
  | .rbAvailable => 0x03
  | .rbSize => 0x04
  | .rbFreeSlots => 0x05
  | .rbFull => 0x06
  | .rbEmpty => 0x07
  | .rbPuts => 0x08
  | .rbGets => 0x09
  | .rbOverflows => 0x0A
  | .rbHwm => 0x0B
  | .faBegin _ _ => 0x40
  | .faAvailable => 0x41
  | .faGetNextMessage => 0x42
  | .faSendMessage _ _ _ _ _ => 0x43
  | .faSendMessageNoUpdate _ => 0x44
  | .faSetNumBuffers _ _ => 0x45
  | .faSetDebug _ => 0x46
  | .faReset => 0x47
  | .faPrintStatus => 0x48
  | .faSent => 0x49
  | .faReceived => 0x4A
  | .faPuts => 0x4B
  | .faGets => 0x4C
  | .faOverflows => 0x4D
  | .faHwm => 0x4E
  | .evRxComplete _ => 0x80
  | .evTxComplete => 0x81
  | .evErrWarning => 0x82
  | .evErrPassive => 0x83
  | .evErrBusOff => 0x84
  | .evBusRecovery => 0x85
  | .evMailboxOverrun => 0x86
  | .evBusLock => 0x87
  | .evChannelError => 0x88
  | .evTxAbort => 0x89
  | .evGlobalError => 0x8A
  | .evFifoEmpty => 0x8B

/-- The operand word of an operation (30_encoding.md R102, R106); 0 where its format has none. -/
def operandWord (c : Config) (i : Instr) : Nat :=
  match i with
  | .rbPut frame => packFrame frame
  | .faBegin pollingMode busInterface => pollingMode.toNat + busInterface * 2
  | .faSendMessage frame remoteFlag extendedFlag prioValid priority =>
    packFrame frame + remoteFlag.toNat * 2 ^ 99 + extendedFlag.toNat * 2 ^ 100 + prioValid.toNat * 2 ^ 101 + priority * 2 ^ 102
  | .faSendMessageNoUpdate frame => packFrame frame
  | .faSetNumBuffers rxCount txCount => rxCount + txCount * 2 ^ c.sizeW
  | .faSetDebug enabled => enabled.toNat
  | .evRxComplete native => packNative native
  | _ => 0

/-- How many bits the operand word of an operation has (30_encoding.md R102, R106). -/
def operandWidth (c : Config) (i : Instr) : Nat :=
  match i with
  | .rbPut _ => 99
  | .faBegin _ _ => 1 + c.busIfW
  | .faSendMessage _ _ _ _ _ => 102 + c.prioW
  | .faSendMessageNoUpdate _ => 99
  | .faSetNumBuffers _ _ => 2 * c.sizeW
  | .faSetDebug _ => 1
  | .evRxComplete _ => 99
  | _ => 0

/-- The encoder: the word an operation is presented as. -/
def encode (c : Config) (i : Instr) : OpWord := { op := opcodeOf i, arg := operandWord c i }

/-- The word of an operation whose bits are numbered as the opcode table numbers them: the opcode byte in bits 7..0, the
operand word from bit 8 up (log 11); every bit from `nbits` up is 0. -/
def tableWord (nbits w : Nat) : OpWord := { op := BitVec.ofNat 8 (w % 2 ^ nbits), arg := w % 2 ^ nbits / 2 ^ 8 }

/-- The operation the decoder reads from a word of the opcode table, for the instance State.reset carries (log 1). -/
def decodeTableWord (nbits w : Nat) : Option Instr :=
  match decode Config.instanceT (tableWord nbits w) with
  | .ok i => some i
  | .error _ => none

end Sys2Proof
end

