-- ==== Sys2Proof/Machine/State.lean ====
section
/-! DEFINITION. The state of the block as plain data, the reasons a step can stop, and the state after reset. -/

namespace Sys2Proof.Machine

/-- The two agents (00_scope.md R18; 60_exceptions.md R251). -/
inductive Agent where
  /-- The peripheral's notification callback, "interrupt context". -/
  | producer
  /-- The application polling loop. -/
  | consumer
deriving DecidableEq, Repr

/-- How the block is used, fixed at launch (30_encoding.md R100; 70_reset_and_hazards.md R270). -/
inductive Deployment where
  /-- FA owns RB: the application port and the event port accept operations, RB.* is internal. -/
  | composed
  /-- RB alone: only the RB port pair accepts operations. -/
  | ringBufferAlone
deriving DecidableEq, Repr

/-- The ports that accept operations (30_encoding.md R100 (1), (2), (5)). -/
inductive Port where
  | application
  | event
  | ringBufferProducer
  | ringBufferConsumer
deriving DecidableEq, Repr

/-- The slot memory (20_memory.md R70): the slots that hold a value, as (index, Frame) pairs with strictly rising indices.
An index that is not listed holds no value (10_state.md R24; log 9). -/
abbrev Memory := List (Nat × Frame)

/-- The registers and slots of one ring buffer (10_state.md R24 to R27, R32 to R34). -/
structure RingBuffer where
  /-- `CAP`, fixed from construction on (R34). -/
  cap       : Nat
  /-- Next write position (R25). -/
  head      : Nat
  /-- Next read position (R25). -/
  tail      : Nat
  /-- The stored full flag (R26). -/
  full      : Bool
  /-- The current-size cache (R27). -/
  size      : Nat
  /-- Total puts (R32). -/
  puts      : Nat
  /-- Total gets that took a frame (R32). -/
  gets      : Nat
  /-- Total overflow events (R32). -/
  overflows : Nat
  /-- High-water mark (R33). -/
  hwm       : Nat
  /-- The slot array (R24). -/
  slots     : Memory
deriving DecidableEq, Repr

/-- A ring buffer right after its construction with capacity `cap` (70_reset_and_hazards.md R270): no slot holds a value.
It does not check the capacity; FA.BEGIN does, and RB alone does not (log 16). -/
def RingBuffer.construct (cap : Nat) : RingBuffer :=
  { cap := cap, head := 0, tail := 0, full := false, size := 0, puts := 0, gets := 0, overflows := 0, hwm := 0, slots := [] }

/-- The result an operation returns on its port (30_encoding.md R102). -/
inductive Result where
  /-- `res[0]`: a Boolean, `ovf` or `ok`. -/
  | bit (b : Bool)
  /-- Format G: `res[98:0]` a packed Frame, `res[99]` the `valid` bit. -/
  | frame (f : Frame) (valid : Bool)
  /-- Format Q, SIZE_W bits: a size or the high-water mark. -/
  | size (n : Nat)
  /-- Format Q, CNT_W bits: a cumulative counter. -/
  | count (n : Nat)
deriving DecidableEq, Repr

/-- What the block puts on the peripheral command port (60_exceptions.md R250). -/
inductive Command where
  | configureBitrate (rate : Nat)
  | registerCallback
  | start
  | submit (native : NativeFrame)
deriving DecidableEq, Repr

/-- What the last step put on the output ports (30_encoding.md R100): the result word, the peripheral commands in the order
issued, and the observer strobe. They are ports, not registers: each step drives them anew (log 8). -/
structure Outputs where
  res      : Option Result := none
  commands : List Command := []
  strobe   : Option (Frame × Bool) := none
deriving DecidableEq, Repr

/-- The whole state of the block, its ports and its launch parameters (INVENTORY.md, State). -/
structure State where
  /-- The launch parameters; no step writes them (log 1). -/
  config       : Config
  /-- The use of the block, fixed at launch; no step writes it (log 6). -/
  deployment   : Deployment
  /-- The ring buffer, if it has been constructed (10_state.md R40; 70_reset_and_hazards.md R270). -/
  rb           : Option RingBuffer
  /-- The configured receive capacity (10_state.md R41). -/
  rxcap        : Nat
  /-- The ring buffer is allocated and the callback registered (10_state.md R42). -/
  allocated    : Bool
  /-- The peripheral's answer to start() (10_state.md R42). -/
  started      : Bool
  /-- The debug flag, which nothing reads (10_state.md R43). -/
  debug        : Bool
  /-- Messages sent (10_state.md R44). -/
  sent         : Nat
  /-- Messages received (10_state.md R44). -/
  received     : Nat
  /-- What the producer presents on its port, oldest first (30_encoding.md R100; log 7). -/
  producerPort : List OpWord
  /-- What the consumer presents on its port, oldest first (30_encoding.md R100; log 7). -/
  consumerPort : List OpWord
  /-- Who goes first at the next coincident presentations (20_memory.md R81; the model's own, log 5). -/
  turns        : List Agent
  /-- The peripheral's next answers (00_scope.md R13; the model's own, log 4). -/
  answers      : List Bool
  /-- Which free value the next open choice takes (the model's own, log 4). -/
  draws        : Nat
  /-- What the last step put on the output ports. -/
  out          : Outputs
deriving DecidableEq, Repr

/-- No step of this block faults: "No operation and no event of this block traps, faults, aborts, halts or changes the flow of
anything" (60_exceptions.md R230). So there is no reason. -/
inductive Fault
deriving DecidableEq, Repr

/-- Why a step is refused: the spec gives the situation no meaning (00_scope.md R16, `refuse`). Each is safe: the model stops
where nothing may be claimed. -/
inductive Refusal where
  /-- Raised by exec for an operation without a meaning. Safe. -/
  | notModelled (mnemonic : String)
  /-- Raised by the RB.* operations where no ring buffer has been constructed (10_state.md R34, R40). Safe. -/
  | noRingBuffer
  /-- Raised by FA.BEGIN when `allocated` is already true (43_frame_adapter.md R200 (d), U1). Safe. -/
  | beginTwice
  /-- Raised by the FA operations that need the ring buffer or the peripheral, before FA.BEGIN (70_reset_and_hazards.md R275,
  U2). Safe. -/
  | notBegun
  /-- Raised by FA.SETNUMBUFFERS for a capacity outside 1..CAP_MAX (43_frame_adapter.md R206 (c), U3), and by FA.BEGIN where
  `rxcap` is outside it (00_scope.md R7; log 12). Safe. -/
  | badCapacity
  /-- Raised by step for a presented frame whose length pattern is 9..15 (30_encoding.md R104, R115, U4). Safe. -/
  | reservedLength
  /-- Raised by step for a reserved opcode (30_encoding.md R113, U8). Safe. -/
  | reservedOpcode
  /-- Raised by step for operand bits the format does not have (30_encoding.md R102; log 11). Safe. -/
  | operandTooWide
  /-- Raised by step for an operation on a port that does not accept it, or from the wrong context (30_encoding.md R113, U8;
  60_exceptions.md R251, U6). Safe. -/
  | wrongPort
deriving DecidableEq, Repr

/-- The composed block after reset, for the launch parameters `c` (70_reset_and_hazards.md R270): no ring buffer yet, nothing
presented, nothing said about the environment's answers. -/
def State.launch (c : Config) : State :=
  { config := c, deployment := .composed, rb := none, rxcap := Config.capDefault, allocated := false, started := false,
    debug := false, sent := 0, received := 0, producerPort := [], consumerPort := [], turns := [], answers := [], draws := 0,
    out := {} }

/-- RB used alone after reset, with its capacity fixed as the parameter `cap` (70_reset_and_hazards.md R270, R276).
DESIGN CHOICE: a capacity outside 1..CAP_MAX, to which the spec gives no meaning, is not checked for (log 16). -/
def State.launchAlone (c : Config) (cap : Nat) : State :=
  { State.launch c with deployment := .ringBufferAlone, rb := some (RingBuffer.construct cap) }

/-- The machine right after reset: the composed block with the parameters of the spec's test instance T (log 1, log 6). -/
def State.reset : State := State.launch Config.instanceT

end Sys2Proof.Machine
end

