-- ==== Sys2Proof/Machine/Flags.lean ====
section
/-! DEFINITION. The full flag, the occupancy and the predicates derived from them. -/

namespace Sys2Proof.Machine

/-- The true count of valid unread slots (10_state.md R28, its form without a negative intermediate; R141). -/
def occ (cap head tail : Nat) (full : Bool) : Nat :=
  if full then cap else if tail ≤ head then head - tail else cap - tail + head

/-- The occupancy of a ring buffer, from its head, tail and full flag (10_state.md R28). -/
def RingBuffer.occupancy (rb : RingBuffer) : Nat := occ rb.cap rb.head rb.tail rb.full

/-- `full` as put recomputes it, from the advanced head and tail (10_state.md R26). -/
def fullAfterPut (head tail : Nat) : Bool := head == tail

/-- At least one unread frame is present (41_ring_buffer_queries.md R160; 10_state.md R35). -/
def RingBuffer.isAvailable (rb : RingBuffer) : Bool := rb.full || rb.head != rb.tail

/-- No unread frame is present (41_ring_buffer_queries.md R164). -/
def RingBuffer.isEmpty (rb : RingBuffer) : Bool := !rb.full && rb.head == rb.tail

end Sys2Proof.Machine
end

