-- ==== Sys2Proof/Machine/Operands.lean ====
section
/-! DEFINITION. The values operations make of their operands and give as results: the translations between native and
canonical frames, header stamping, the default priority, the default frame and the result words. -/

namespace Sys2Proof.Machine

/-- DEFAULT_FRAME, every field zero (10_state.md R23). -/
def defaultFrame : Frame :=
  { id := 0, len := 0, data := #v[0, 0, 0, 0, 0, 0, 0, 0], rtr := false, ext := false }

/-- The payload with every byte at and beyond the length set to zero (42_frame_translation.md R182, R184). -/
def zeroFill (len : PayloadLength) (data : Payload) : Payload :=
  Vector.ofFn fun i => if i.val < len.val then data[i] else 0

/-- FromNative (42_frame_translation.md R182); the identifier is copied as it stands (R183). -/
def fromNative (n : NativeFrame) : Frame :=
  { id := n.id, len := n.dlc, data := zeroFill n.dlc n.data, rtr := n.remote, ext := n.extended }

/-- ToNative (42_frame_translation.md R184); the identifier is copied as it stands (R183). -/
def toNative (f : Frame) : NativeFrame :=
  { id := f.id, dlc := f.len, data := zeroFill f.len f.data, remote := f.rtr, extended := f.ext }

/-- StampFrame (42_frame_translation.md R186): the identifier from Stamp, the two flags from the explicit arguments. -/
def stampFrame (f : Frame) (remoteFlag extendedFlag : Bool) (priority : Nat) : Frame :=
  { f with id := Config.stamp f priority, rtr := remoteFlag, ext := extendedFlag }

/-- The priority a send uses: the operand where it is supplied, DEFAULT_PRIORITY otherwise (30_encoding.md R103). -/
def priorityOf (c : Config) (prioValid : Bool) (priority : Nat) : Nat :=
  if prioValid then priority else c.defaultPriority

/-- The result word `res` (30_encoding.md R102). -/
def Result.word : Result → Nat
  | .bit b => b.toNat
  | .frame f valid => packFrame f + valid.toNat * 2 ^ 99
  | .size n => n
  | .count n => n

/-- The width of the result word (30_encoding.md R102). -/
def Result.width (c : Config) : Result → Nat
  | .bit _ => 1
  | .frame _ _ => 100
  | .size _ => c.sizeW
  | .count _ => c.cntW

end Sys2Proof.Machine
end

