-- ==== Sys2Proof/Machine/Ops.lean ====
section
/-! DEFINITION. The operations every meaning shares: the slot memory, the index and counter arithmetic, put, get and clear,
the result port, the peripheral's answers, and the delivery of an event. The block takes no exception and returns from none
(60_exceptions.md R230, R235); what stands in their place is an event's entry, `deliver`. -/

namespace Sys2Proof.Machine

/-- SlotRead (00_scope.md R16; 20_memory.md R73): the record at an index, if the slot holds one. -/
def Memory.read : Memory → Nat → Option Frame
  | [], _ => none
  | (k, g) :: m, i => if k = i then some g else Memory.read m i

/-- SlotWrite (00_scope.md R16; 20_memory.md R73): replaces the whole record at an index, keeping the indices rising. -/
def Memory.write : Memory → Nat → Frame → Memory
  | [], i, f => [(i, f)]
  | (k, g) :: m, i, f =>
    if i < k then (i, f) :: (k, g) :: m
    else if i = k then (i, f) :: m
    else (k, g) :: Memory.write m i f

/-- The canonical form: indices strictly rising. An unlisted slot holds no value, so no entry equals what it reads as. -/
def Memory.wf : Memory → Bool
  | [] => true
  | [_] => true
  | (k, _) :: (k', g) :: m => decide (k < k') && Memory.wf ((k', g) :: m)

/-- `inc(p) = (p + 1) mod CAP` (40_ring_buffer_mutators.md R140). -/
def RingBuffer.inc (rb : RingBuffer) (p : Nat) : Nat := (p + 1) % rb.cap

/-- `cinc(c) = (c + 1) mod 2^CNT_W` (40_ring_buffer_mutators.md R142; 00_scope.md R8). -/
def cinc (c : Config) (n : Nat) : Nat := (n + 1) % 2 ^ c.cntW

/-- What a get reads at an index: the record, or, where nothing has been written, any value (93_implementation_defined.md U10;
log 9). -/
def RingBuffer.frameAt (rb : RingBuffer) (i : Nat) : Frame :=
  (Memory.read rb.slots i).getD (Config.unwrittenSlot i)

/-- put (40_ring_buffer_mutators.md R144). -/
def RingBuffer.put (c : Config) (f : Frame) (rb : RingBuffer) : RingBuffer :=
  let tail' := if rb.full then rb.inc rb.tail else rb.tail
  let head' := rb.inc rb.head
  let full' := fullAfterPut head' tail'
  let size' := occ rb.cap head' tail' full'
  { rb with
    slots := Memory.write rb.slots rb.head f
    head := head'
    tail := tail'
    full := full'
    size := size'
    hwm := max rb.hwm size'
    puts := cinc c rb.puts
    overflows := if rb.full then cinc c rb.overflows else rb.overflows }

/-- get where a frame is taken (40_ring_buffer_mutators.md R145, the else branch). -/
def RingBuffer.take (c : Config) (rb : RingBuffer) : RingBuffer :=
  let tail' := rb.inc rb.tail
  { rb with
    full := false
    tail := tail'
    size := occ rb.cap rb.head tail' false
    gets := cinc c rb.gets }

/-- get (40_ring_buffer_mutators.md R145): no register changes where the buffer is empty (log 14). -/
def RingBuffer.get (c : Config) (rb : RingBuffer) : RingBuffer :=
  if rb.occupancy = 0 then rb else rb.take c

/-- What get returns (40_ring_buffer_mutators.md R145): the frame at the old tail with `valid`, or DEFAULT_FRAME. -/
def RingBuffer.getResult (rb : RingBuffer) : Result :=
  if rb.occupancy = 0 then .frame defaultFrame false else .frame (rb.frameAt rb.tail) true

/-- clear (40_ring_buffer_mutators.md R146). -/
def RingBuffer.clear (rb : RingBuffer) : RingBuffer :=
  { rb with head := 0, tail := 0, full := false, size := 0 }

/-- size() recomputes and caches the occupancy (41_ring_buffer_queries.md R161). -/
def RingBuffer.recompute (rb : RingBuffer) : RingBuffer := { rb with size := rb.occupancy }

/-- The state with the ring buffer replaced. -/
def State.withRb (s : State) (rb : RingBuffer) : State := { s with rb := some rb }

/-- The state with the output ports driven by an operation that only returns a result, or none (log 8). -/
def State.report (s : State) (r : Option Result) : State :=
  { s with out := { res := r, commands := [], strobe := none } }

/-- An RB.* operation, on the ring buffer (10_state.md R34: before construction there is none). -/
def onRingBuffer (s : State) (k : RingBuffer → Host.Outcome State Fault Refusal) : Host.Outcome State Fault Refusal :=
  match s.rb with
  | some rb => k rb
  | none => .refused .noRingBuffer

/-- An FA operation that needs `begin` to have run (70_reset_and_hazards.md R275; U2). -/
def afterBegin (s : State) (k : Host.Outcome State Fault Refusal) : Host.Outcome State Fault Refusal :=
  if s.allocated then k else .refused .notBegun

/-- The peripheral's answer to the next question of the block (00_scope.md R13): what the environment has said, otherwise
a free value of `oracle` (log 4). -/
def State.answerFrom (s : State) (oracle : Nat → Bool) : Bool :=
  match s.answers with
  | a :: _ => a
  | [] => oracle s.draws

/-- The state once an answer has been drawn. -/
def State.afterAnswer (s : State) : State :=
  match s.answers with
  | _ :: rest => { s with answers := rest }
  | [] => { s with draws := s.draws + 1 }

/-- An event's entry (60_exceptions.md R234, R236): handled only while the callback is registered; otherwise it is not
delivered and has no effect (log 10). An event has no result. -/
def deliver (s : State) (k : Host.Outcome State Fault Refusal) : Host.Outcome State Fault Refusal :=
  if s.allocated then k else .next (s.report none)

/-- An event that is reported and not handled: no state change (60_exceptions.md R238, R239). -/
def ignoreEvent (s : State) : Host.Outcome State Fault Refusal := deliver s (.next (s.report none))

/-- A query of the ring buffer: nothing but the result changes (20_memory.md R79). -/
def answerQuery (s : State) (r : RingBuffer → Result) : Host.Outcome State Fault Refusal :=
  onRingBuffer s fun rb => .next (s.report (some (r rb)))

end Sys2Proof.Machine
end

