-- ==== Sys2Proof/Machine/Events.lean ====
section
/-! DEFINITION. The twelve notification events (60_exceptions.md). -/

namespace Sys2Proof.Machine

/-- EV.RX_COMPLETE (R237): translate the native frame and put it. -/
def execEvRxComplete (native : NativeFrame) (s : State) : Host.Outcome State Fault Refusal :=
  deliver s (onRingBuffer s fun rb => .next ((s.withRb (rb.put s.config (fromNative native))).report none))

/-- EV.TX_COMPLETE (R238): no state change. -/
def execEvTxComplete (s : State) : Host.Outcome State Fault Refusal := ignoreEvent s

/-- EV.ERR_WARNING (R239): no state change. -/
def execEvErrWarning (s : State) : Host.Outcome State Fault Refusal := ignoreEvent s

/-- EV.ERR_PASSIVE (R240): no state change. -/
def execEvErrPassive (s : State) : Host.Outcome State Fault Refusal := ignoreEvent s

/-- EV.ERR_BUS_OFF (R241): no state change. -/
def execEvErrBusOff (s : State) : Host.Outcome State Fault Refusal := ignoreEvent s

/-- EV.BUS_RECOVERY (R242): no state change. -/
def execEvBusRecovery (s : State) : Host.Outcome State Fault Refusal := ignoreEvent s

/-- EV.MAILBOX_OVERRUN (R243): no state change; it is not the ring buffer's overflow. -/
def execEvMailboxOverrun (s : State) : Host.Outcome State Fault Refusal := ignoreEvent s

/-- EV.BUS_LOCK (R244): no state change. -/
def execEvBusLock (s : State) : Host.Outcome State Fault Refusal := ignoreEvent s

/-- EV.CHANNEL_ERROR (R245): no state change. -/
def execEvChannelError (s : State) : Host.Outcome State Fault Refusal := ignoreEvent s

/-- EV.TX_ABORT (R246): no state change; `sent` is not decremented. -/
def execEvTxAbort (s : State) : Host.Outcome State Fault Refusal := ignoreEvent s

/-- EV.GLOBAL_ERROR (R247): no state change. -/
def execEvGlobalError (s : State) : Host.Outcome State Fault Refusal := ignoreEvent s

/-- EV.FIFO_EMPTY (R248): no state change; the FIFO is one of the peripheral's. -/
def execEvFifoEmpty (s : State) : Host.Outcome State Fault Refusal := ignoreEvent s

end Sys2Proof.Machine
end

