-- ==== Sys2Proof/Machine/FrameAdapter.lean ====
section
/-! DEFINITION. The operations the frame adapter exposes to the application (43_frame_adapter.md). -/

namespace Sys2Proof.Machine

/-- FA.BEGIN (R200): constructs the ring buffer, registers the callback, starts the peripheral; a failed start undoes
nothing (R200 (b)). `pollingMode` and `busInterface` are accepted and ignored (R200 (c)). -/
def execFaBegin (_pollingMode : Bool) (_busInterface : Nat) (s : State) : Host.Outcome State Fault Refusal :=
  if s.allocated then .refused .beginTwice
  else if s.rxcap = 0 ∨ s.config.capMax < s.rxcap then .refused .badCapacity
  else
    let ok := s.answerFrom Config.startAnswer
    .next
      { s.afterAnswer with
        rb := some (RingBuffer.construct s.rxcap)
        allocated := true
        started := ok
        out := { res := some (.bit ok), commands := [.configureBitrate Config.bitrate, .registerCallback, .start],
                 strobe := none } }

/-- FA.AVAILABLE (R201) delegates to RB.AVAILABLE. -/
def execFaAvailable (s : State) : Host.Outcome State Fault Refusal :=
  afterBegin s (answerQuery s fun rb => .bit rb.isAvailable)

/-- FA.GETNEXTMESSAGE (R202): RB.GET, and `received` counts every one, also on an empty buffer (R202 (a)). -/
def execFaGetNextMessage (s : State) : Host.Outcome State Fault Refusal :=
  afterBegin s (onRingBuffer s fun rb =>
    .next ({ s.withRb (rb.get s.config) with received := cinc s.config s.received }.report (some rb.getResult)))

/-- FA.SENDMESSAGE (R203): stamp, set the flags, submit, show the observer the stamped frame and the result (R204), and
count it only on success. -/
def execFaSendMessage (frame : Frame) (remoteFlag extendedFlag prioValid : Bool) (priority : Nat) (s : State) :
    Host.Outcome State Fault Refusal :=
  afterBegin s (
    let g := stampFrame frame remoteFlag extendedFlag (priorityOf s.config prioValid priority)
    let ok := s.answerFrom Config.submitAnswer
    .next
      { s.afterAnswer with
        sent := if ok then cinc s.config s.sent else s.sent
        out := { res := some (.bit ok), commands := [.submit (toNative g)],
                 strobe := if s.config.observer then some (g, ok) else none } })

/-- FA.SENDMESSAGENOUPDATE (R205): submits the frame as it is; counts nothing, calls no observer. -/
def execFaSendMessageNoUpdate (frame : Frame) (s : State) : Host.Outcome State Fault Refusal :=
  afterBegin s (
    let ok := s.answerFrom Config.submitAnswer
    .next
      { s.afterAnswer with
        out := { res := some (.bit ok), commands := [.submit (toNative frame)], strobe := none } })

/-- FA.SETNUMBUFFERS (R206): no effect once allocated; `txCount` is ignored in every case. -/
def execFaSetNumBuffers (rxCount _txCount : Nat) (s : State) : Host.Outcome State Fault Refusal :=
  if s.allocated then .next (s.report none)
  else if rxCount = 0 ∨ s.config.capMax < rxCount then .refused .badCapacity
  else .next ({ s with rxcap := rxCount }.report none)

/-- FA.SETDEBUG (R207): sets the flag to the operand, in every state. -/
def execFaSetDebug (enabled : Bool) (s : State) : Host.Outcome State Fault Refusal :=
  .next ({ s with debug := enabled }.report none)

/-- FA.RESET (R208): a no-op in every state. -/
def execFaReset (s : State) : Host.Outcome State Fault Refusal := .next (s.report none)

/-- FA.PRINTSTATUS (R209): a no-op in every state. -/
def execFaPrintStatus (s : State) : Host.Outcome State Fault Refusal := .next (s.report none)

/-- FA.SENT (R210), in every state. -/
def execFaSent (s : State) : Host.Outcome State Fault Refusal := .next (s.report (some (.count s.sent)))

/-- FA.RECEIVED (R211), in every state. -/
def execFaReceived (s : State) : Host.Outcome State Fault Refusal := .next (s.report (some (.count s.received)))

/-- FA.PUTS (R212) delegates to RB.PUTS. -/
def execFaPuts (s : State) : Host.Outcome State Fault Refusal :=
  afterBegin s (answerQuery s fun rb => .count rb.puts)

/-- FA.GETS (R213) delegates to RB.GETS. -/
def execFaGets (s : State) : Host.Outcome State Fault Refusal :=
  afterBegin s (answerQuery s fun rb => .count rb.gets)

/-- FA.OVERFLOWS (R214) delegates to RB.OVERFLOWS. -/
def execFaOverflows (s : State) : Host.Outcome State Fault Refusal :=
  afterBegin s (answerQuery s fun rb => .count rb.overflows)

/-- FA.HWM (R216) delegates to RB.HWM. -/
def execFaHwm (s : State) : Host.Outcome State Fault Refusal :=
  afterBegin s (answerQuery s fun rb => .size rb.hwm)

end Sys2Proof.Machine
end

