-- ==== Sys2Proof/Machine/RingBufferMutators.lean ====
section
/-! DEFINITION. The three operations that change the ring buffer (40_ring_buffer_mutators.md). -/

namespace Sys2Proof.Machine

/-- RB.PUT (R144): the result bit `ovf` says the buffer was full. -/
def execRbPut (frame : Frame) (s : State) : Host.Outcome State Fault Refusal :=
  onRingBuffer s fun rb => .next ((s.withRb (rb.put s.config frame)).report (some (.bit rb.full)))

/-- RB.GET (R145). -/
def execRbGet (s : State) : Host.Outcome State Fault Refusal :=
  onRingBuffer s fun rb => .next ((s.withRb (rb.get s.config)).report (some rb.getResult))

/-- RB.CLEAR (R146). -/
def execRbClear (s : State) : Host.Outcome State Fault Refusal :=
  onRingBuffer s fun rb => .next ((s.withRb rb.clear).report none)

end Sys2Proof.Machine
end

