-- ==== Sys2Proof/Machine/RingBufferQueries.lean ====
section
/-! DEFINITION. The nine operations that read the ring buffer (41_ring_buffer_queries.md). -/

namespace Sys2Proof.Machine

/-- RB.AVAILABLE (R160). -/
def execRbAvailable (s : State) : Host.Outcome State Fault Refusal :=
  answerQuery s fun rb => .bit rb.isAvailable

/-- RB.SIZE (R161): recomputes and caches. -/
def execRbSize (s : State) : Host.Outcome State Fault Refusal :=
  onRingBuffer s fun rb => .next ((s.withRb rb.recompute).report (some (.size rb.occupancy)))

/-- RB.FREE_SLOTS (R162): calls size(), so it caches too. -/
def execRbFreeSlots (s : State) : Host.Outcome State Fault Refusal :=
  onRingBuffer s fun rb => .next ((s.withRb rb.recompute).report (some (.size (rb.cap - rb.occupancy))))

/-- RB.FULL (R163). -/
def execRbFull (s : State) : Host.Outcome State Fault Refusal :=
  answerQuery s fun rb => .bit rb.full

/-- RB.EMPTY (R164). -/
def execRbEmpty (s : State) : Host.Outcome State Fault Refusal :=
  answerQuery s fun rb => .bit rb.isEmpty

/-- RB.PUTS (R165). -/
def execRbPuts (s : State) : Host.Outcome State Fault Refusal :=
  answerQuery s fun rb => .count rb.puts

/-- RB.GETS (R166). -/
def execRbGets (s : State) : Host.Outcome State Fault Refusal :=
  answerQuery s fun rb => .count rb.gets

/-- RB.OVERFLOWS (R167). -/
def execRbOverflows (s : State) : Host.Outcome State Fault Refusal :=
  answerQuery s fun rb => .count rb.overflows

/-- RB.HWM (R168). -/
def execRbHwm (s : State) : Host.Outcome State Fault Refusal :=
  answerQuery s fun rb => .size rb.hwm

end Sys2Proof.Machine
end

