-- ==== Sys2Proof/Machine/Dispatch.lean ====
section
/-! DEFINITION. One arm per operation of the opcode table, each one call of its meaning. -/

namespace Sys2Proof.Machine

/-- The meaning of an operation, once a port has accepted it. -/
def exec (i : Instr) (s : State) : Host.Outcome State Fault Refusal :=
  match i with
  | .rbPut frame => Sys2Proof.Machine.execRbPut frame s
  | .rbGet => Sys2Proof.Machine.execRbGet s
  | .rbClear => Sys2Proof.Machine.execRbClear s
  | .rbAvailable => Sys2Proof.Machine.execRbAvailable s
  | .rbSize => Sys2Proof.Machine.execRbSize s
  | .rbFreeSlots => Sys2Proof.Machine.execRbFreeSlots s
  | .rbFull => Sys2Proof.Machine.execRbFull s
  | .rbEmpty => Sys2Proof.Machine.execRbEmpty s
  | .rbPuts => Sys2Proof.Machine.execRbPuts s
  | .rbGets => Sys2Proof.Machine.execRbGets s
  | .rbOverflows => Sys2Proof.Machine.execRbOverflows s
  | .rbHwm => Sys2Proof.Machine.execRbHwm s
  | .faBegin pollingMode busInterface => Sys2Proof.Machine.execFaBegin pollingMode busInterface s
  | .faAvailable => Sys2Proof.Machine.execFaAvailable s
  | .faGetNextMessage => Sys2Proof.Machine.execFaGetNextMessage s
  | .faSendMessage frame remoteFlag extendedFlag prioValid priority => Sys2Proof.Machine.execFaSendMessage frame remoteFlag extendedFlag prioValid priority s
  | .faSendMessageNoUpdate frame => Sys2Proof.Machine.execFaSendMessageNoUpdate frame s
  | .faSetNumBuffers rxCount txCount => Sys2Proof.Machine.execFaSetNumBuffers rxCount txCount s
  | .faSetDebug enabled => Sys2Proof.Machine.execFaSetDebug enabled s
  | .faReset => Sys2Proof.Machine.execFaReset s
  | .faPrintStatus => Sys2Proof.Machine.execFaPrintStatus s
  | .faSent => Sys2Proof.Machine.execFaSent s
  | .faReceived => Sys2Proof.Machine.execFaReceived s
  | .faPuts => Sys2Proof.Machine.execFaPuts s
  | .faGets => Sys2Proof.Machine.execFaGets s
  | .faOverflows => Sys2Proof.Machine.execFaOverflows s
  | .faHwm => Sys2Proof.Machine.execFaHwm s
  | .evRxComplete native => Sys2Proof.Machine.execEvRxComplete native s
  | .evTxComplete => Sys2Proof.Machine.execEvTxComplete s
  | .evErrWarning => Sys2Proof.Machine.execEvErrWarning s
  | .evErrPassive => Sys2Proof.Machine.execEvErrPassive s
  | .evErrBusOff => Sys2Proof.Machine.execEvErrBusOff s
  | .evBusRecovery => Sys2Proof.Machine.execEvBusRecovery s
  | .evMailboxOverrun => Sys2Proof.Machine.execEvMailboxOverrun s
  | .evBusLock => Sys2Proof.Machine.execEvBusLock s
  | .evChannelError => Sys2Proof.Machine.execEvChannelError s
  | .evTxAbort => Sys2Proof.Machine.execEvTxAbort s
  | .evGlobalError => Sys2Proof.Machine.execEvGlobalError s
  | .evFifoEmpty => Sys2Proof.Machine.execEvFifoEmpty s

end Sys2Proof.Machine
end

