-- ==== Sys2Proof/Machine/Ports.lean ====
section
/-! DEFINITION. The ports: which operation each accepts, which presentation the next step takes, and presenting one. -/

namespace Sys2Proof.Machine

/-- The port an agent acts on (30_encoding.md R100; 60_exceptions.md R251). -/
def portOf (d : Deployment) (a : Agent) : Port :=
  match d, a with
  | .composed, .producer => .event
  | .composed, .consumer => .application
  | .ringBufferAlone, .producer => .ringBufferProducer
  | .ringBufferAlone, .consumer => .ringBufferConsumer

/-- The unit of an opcode, `op[7:6]`: 0 RB, 1 FA, 2 EV, 3 reserved (30_encoding.md R101). -/
def unitOf (op : Opcode) : Nat := op.toNat / 64

/-- Whether a port accepts an operation (30_encoding.md R100, R113; 60_exceptions.md R251). -/
def accepts (p : Port) (op : Opcode) : Bool :=
  match p with
  | .application => unitOf op == 1
  | .event => unitOf op == 2
  | .ringBufferProducer => op == 0x00
  | .ringBufferConsumer => unitOf op == 0 && op != 0x00

/-- The refusal of a word that is no operation (30_encoding.md R102, R113, R115). -/
def refusalOf : DecodeError → Refusal
  | .reservedOpcode => .reservedOpcode
  | .reservedLength => .reservedLength
  | .operandTooWide => .operandTooWide

/-- The presentation the next step takes, with the state once it is taken; none where nothing is presented.
Where both agents present, `turns` says who goes first, and where it does not, a free value (20_memory.md R81; log 5). -/
def takeNext (s : State) : Option (Agent × OpWord × State) :=
  match s.producerPort, s.consumerPort with
  | [], [] => none
  | w :: ws, [] => some (.producer, w, { s with producerPort := ws })
  | [], w :: ws => some (.consumer, w, { s with consumerPort := ws })
  | p :: ps, q :: qs =>
    match s.turns with
    | .producer :: ts => some (.producer, p, { s with producerPort := ps, turns := ts })
    | .consumer :: ts => some (.consumer, q, { s with consumerPort := qs, turns := ts })
    | [] =>
      if Config.producerFirst s.draws then some (.producer, p, { s with producerPort := ps, draws := s.draws + 1 })
      else some (.consumer, q, { s with consumerPort := qs, draws := s.draws + 1 })

/-- Put a word at the front of an agent's port, to be taken by the very next step. -/
def State.present (s : State) (a : Agent) (w : OpWord) : State :=
  match a with
  | .producer =>
    { s with producerPort := w :: s.producerPort, turns := if s.consumerPort.isEmpty then s.turns else .producer :: s.turns }
  | .consumer =>
    { s with consumerPort := w :: s.consumerPort, turns := if s.producerPort.isEmpty then s.turns else .consumer :: s.turns }

/-- The agent that may issue an opcode (60_exceptions.md R251). -/
def issuerOf (op : Opcode) : Agent := if op == 0x00 || unitOf op == 2 then .producer else .consumer

/-- The use of the block in which some port accepts the opcode: RB alone for RB.*, with a ring buffer constructed at the
configured capacity where there is none; the composed block otherwise (log 6).
DESIGN CHOICE: that capacity is not checked, though `rxcap` is outside 1..CAP_MAX where CAP_MAX is below 16 and nothing has
configured it, which the spec gives no meaning (70_reset_and_hazards.md R276; log 16). -/
def State.deployedFor (s : State) (op : Opcode) : State :=
  if unitOf op == 0 then
    { s with deployment := .ringBufferAlone, rb := some (s.rb.getD (RingBuffer.construct s.rxcap)) }
  else { s with deployment := .composed }

end Sys2Proof.Machine
end

