-- ==== Sys2Proof/Machine/Step.lean ====
section
/-! DEFINITION. One step of the block, and placing the operation the next step runs. -/

namespace Sys2Proof.Machine

/-- One atomic step (00_scope.md R17): the next presented operation, if its port accepts it. A step with nothing presented is
idle: it changes no register and drives no output (00_scope.md R19; log 7). -/
def step (s : State) : Host.Outcome State Fault Refusal :=
  match takeNext s with
  | none => .next (s.report none)
  | some (agent, w, s') =>
    match decode s.config w with
    | .error e => .refused (refusalOf e)
    | .ok i => if accepts (portOf s.deployment agent) w.op then exec i s' else .refused .wrongPort

/-- The state with an operation of the opcode table presented, so that the very next step runs it: the block is put to the use
in which a port accepts it, and its agent presents it first (log 6). -/
def State.withFetchWord (s : State) (nbits w : Nat) : State :=
  (s.deployedFor (tableWord nbits w).op).present (issuerOf (tableWord nbits w).op) (tableWord nbits w)

end Sys2Proof.Machine
end

