-- ==== Sys2Proof/Safety.lean ====
section
/-! DEFINITION. What claims about the block are said in: the invariants, the frames a buffer holds, runs of operations, and the
true counts of a run. -/

namespace Sys2Proof.Machine

/-- The invariants of a ring buffer (10_state.md R29, R50). -/
structure RingBuffer.Inv (c : Config) (rb : RingBuffer) : Prop where
  cap_pos        : 1 ≤ rb.cap
  cap_le         : rb.cap ≤ c.capMax
  /-- R29 (a). -/
  head_lt        : rb.head < rb.cap
  /-- R29 (a). -/
  tail_lt        : rb.tail < rb.cap
  /-- R29 (b). -/
  full_meets     : rb.full = true → rb.head = rb.tail
  /-- R29 (c). -/
  size_eq        : rb.size = rb.occupancy
  /-- R29 (d). -/
  hwm_le         : rb.hwm ≤ rb.cap
  /-- R29 (g). -/
  size_le_hwm    : rb.size ≤ rb.hwm
  puts_lt        : rb.puts < 2 ^ c.cntW
  gets_lt        : rb.gets < 2 ^ c.cntW
  overflows_lt   : rb.overflows < 2 ^ c.cntW
  /-- The slot memory is in its canonical form and lists slots of the array only (20_memory.md R70, R74). -/
  slots_wf       : Memory.wf rb.slots = true
  slots_lt       : ∀ e ∈ rb.slots, e.1 < rb.cap
  /-- R29 (f): every valid unread slot has been written. -/
  unread_written : ∀ j, j < rb.size → (Memory.read rb.slots ((rb.tail + j) % rb.cap)).isSome = true

/-- The invariants of the block: the legal values of R50, when there is a ring buffer (10_state.md R40, R42;
70_reset_and_hazards.md R270), and that a result fits its word (30_encoding.md R102). -/
structure State.Inv (s : State) : Prop where
  rxcap_pos          : 1 ≤ s.rxcap
  /-- R41: legal, or still the reset value in an instance with fewer than 16 slots, which cannot be begun with it. -/
  rxcap_legal        : s.rxcap ≤ s.config.capMax ∨ s.rxcap = Config.capDefault
  sent_lt            : s.sent < 2 ^ s.config.cntW
  received_lt        : s.received < 2 ^ s.config.cntW
  started_allocated  : s.started = true → s.allocated = true
  composed_allocated : s.deployment = .composed → s.allocated = s.rb.isSome
  alone_constructed  : s.deployment = .ringBufferAlone → s.rb.isSome = true ∧ s.allocated = false
  cap_latched        : s.allocated = true → ∀ rb, s.rb = some rb → rb.cap = s.rxcap
  rb_inv             : ∀ rb, s.rb = some rb → RingBuffer.Inv s.config rb
  res_fits           : ∀ r, s.out.res = some r → r.word < 2 ^ r.width s.config

/-- The frames a ring buffer holds, oldest first: `slots[(tail + j) mod CAP]` for `0 <= j < size` (10_state.md R29 (f)). -/
def RingBuffer.contents (rb : RingBuffer) : List Frame :=
  (List.range rb.size).map fun j => rb.frameAt ((rb.tail + j) % rb.cap)

/-- A bounded queue that discards its oldest frame when one is put while it is full: what a ring buffer is for
(00_scope.md R1). -/
def queuePut (cap : Nat) (q : List Frame) (f : Frame) : List Frame :=
  if q.length = cap then q.drop 1 ++ [f] else q ++ [f]

/-- Whether an operation, accepted by its port, has a step in a state. What the spec refuses has none (93_implementation_defined.md
U1, U2, U3). Two points are the model's: a begin with a capacity out of range has none (DEDUCED, log 12), and an event before the
callback is registered has one, which drops it, where 60_exceptions.md R236 (a) and U5 give the producer none (DESIGN CHOICE,
log 10). -/
def admitted (s : State) (i : Instr) : Bool :=
  match i with
  | .faBegin _ _ => !s.allocated && decide (1 ≤ s.rxcap) && decide (s.rxcap ≤ s.config.capMax)
  | .faSetNumBuffers rxCount _ => s.allocated || (decide (1 ≤ rxCount) && decide (rxCount ≤ s.config.capMax))
  | .faAvailable => s.allocated
  | .faGetNextMessage => s.allocated
  | .faSendMessage _ _ _ _ _ => s.allocated
  | .faSendMessageNoUpdate _ => s.allocated
  | .faPuts => s.allocated
  | .faGets => s.allocated
  | .faOverflows => s.allocated
  | .faHwm => s.allocated
  | _ => true

/-- Operations one after the other; none where one of them does not answer a next state. -/
def runAll : List Instr → State → Option State
  | [], s => some s
  | i :: is, s =>
    match exec i s with
    | .next s' => runAll is s'
    | .fault _ => none
    | .refused _ => none

/-- The true counts of a run of RB operations (40_ring_buffer_mutators.md R147), over the whole run and since its last clear,
and the frames put since the last clear (R148). -/
structure Tally where
  puts                : Nat := 0
  gets                : Nat := 0
  overflows           : Nat := 0
  putsSinceClear      : Nat := 0
  getsSinceClear      : Nat := 0
  overflowsSinceClear : Nat := 0
  /-- The largest size after a put. -/
  largestSize         : Nat := 0
  history             : List Frame := []
deriving DecidableEq, Repr

/-- What one RB operation adds to the counts, from the ring buffer before it and after it. -/
def Tally.count (i : Instr) (before after : RingBuffer) (t : Tally) : Tally :=
  match i with
  | .rbPut f =>
    { t with
      puts := t.puts + 1
      putsSinceClear := t.putsSinceClear + 1
      overflows := t.overflows + before.full.toNat
      overflowsSinceClear := t.overflowsSinceClear + before.full.toNat
      largestSize := max t.largestSize after.size
      history := t.history ++ [f] }
  | .rbGet =>
    { t with
      gets := t.gets + before.isAvailable.toNat
      getsSinceClear := t.getsSinceClear + before.isAvailable.toNat }
  | .rbClear => { t with putsSinceClear := 0, getsSinceClear := 0, overflowsSinceClear := 0, history := [] }
  | _ => t

/-- A run of RB operations with its true counts. -/
def runTally : List Instr → State → Tally → Option (State × Tally)
  | [], s, t => some (s, t)
  | i :: is, s, t =>
    match s.rb, exec i s with
    | some rb, .next s' =>
      match s'.rb with
      | some rb' => runTally is s' (t.count i rb rb')
      | none => none
    | _, _ => none

end Sys2Proof.Machine
end

