-- ==== Sys2Proof/Certificates/Slice0/Obligations.lean ====
section
/-! DEFINITION. The statements about the block, for the provers. Each docstring names the rule it formalises; where a clause is
the model's own choice, it says so and names the log entry. -/

open Sys2Proof Sys2Proof.Machine

/-! ## Arithmetic of the ring buffer -/

/-- 10_state.md R28: occupancy is CAP when full, otherwise (head - tail) mod CAP, computed without a negative intermediate. -/
def Obligations.OccupancyIsModularDifference : Prop :=
  ∀ (cap head tail : Nat) (full : Bool), head < cap → tail < cap →
    (occ cap head tail full : Int) = (if full then (cap : Int) else ((head : Int) - (tail : Int)) % (cap : Int)) ∧
    (full = true → occ cap head tail full = cap) ∧
    (full = false → tail ≤ head → occ cap head tail full = head - tail) ∧
    (full = false → head < tail → occ cap head tail full = cap - tail + head) ∧
    occ cap head tail full ≤ cap ∧
    (full = false → occ cap head tail full < cap)

/-- 10_state.md R35: the derived predicates and their closed forms; `full` as RB.FULL returns it is the stored flag. -/
def Obligations.PredicatesFollowFromOccupancy : Prop :=
  ∀ (c : Config) (rb : RingBuffer), RingBuffer.Inv c rb →
    (rb.isAvailable = true ↔ rb.occupancy ≠ 0) ∧
    (rb.isAvailable = true ↔ rb.full = true ∨ rb.head ≠ rb.tail) ∧
    rb.isEmpty = !rb.isAvailable ∧
    (rb.full = true ↔ rb.occupancy = rb.cap) ∧
    (∀ s : State, s.rb = some rb → exec .rbFull s = .next (s.report (some (.bit rb.full))))

/-- 40_ring_buffer_mutators.md R140: the advance of an index, and that both indices use it. -/
def Obligations.IndexAdvanceWrapsAtCapacity : Prop :=
  ∀ (c : Config) (rb : RingBuffer), RingBuffer.Inv c rb →
    (∀ p, p < rb.cap →
      rb.inc p = (p + 1) % rb.cap ∧ (p < rb.cap - 1 → rb.inc p = p + 1) ∧ (p = rb.cap - 1 → rb.inc p = 0) ∧
      rb.inc p < rb.cap ∧ p + 1 ≤ rb.cap ∧ rb.cap ≤ c.capMax ∧ p + 1 < 2 ^ c.sizeW) ∧
    (rb.cap = 1 → rb.inc 0 = 0) ∧
    (∀ f, (rb.put c f).head = rb.inc rb.head ∧ (rb.put c f).tail = if rb.full then rb.inc rb.tail else rb.tail) ∧
    (rb.occupancy ≠ 0 → (rb.get c).tail = rb.inc rb.tail)

/-- 40_ring_buffer_mutators.md R142: a counter is only ever incremented, wrapping at 2^CNT_W; a step leaves each as it is or
increments it. -/
def Obligations.CumulativeCountersOnlyIncrement : Prop :=
  ∀ (s t : State), s.Inv → step s = .next t →
    (∀ n, cinc s.config n = (n + 1) % 2 ^ s.config.cntW) ∧
    (t.sent = s.sent ∨ t.sent = cinc s.config s.sent) ∧
    (t.received = s.received ∨ t.received = cinc s.config s.received) ∧
    (∀ rb, s.rb = some rb → ∃ rb', t.rb = some rb' ∧
      (rb'.puts = rb.puts ∨ rb'.puts = cinc s.config rb.puts) ∧
      (rb'.gets = rb.gets ∨ rb'.gets = cinc s.config rb.gets) ∧
      (rb'.overflows = rb.overflows ∨ rb'.overflows = cinc s.config rb.overflows))

/-- 40_ring_buffer_mutators.md R143, and 10_state.md R33: put raises the high-water mark to the new size, no step lowers it, and
it never exceeds the capacity. -/
def Obligations.HighWaterMarkNeverFalls : Prop :=
  (∀ (c : Config) (rb : RingBuffer) (f : Frame), RingBuffer.Inv c rb →
    (rb.put c f).hwm = max rb.hwm (rb.put c f).size ∧ rb.hwm ≤ rb.cap ∧ (rb.put c f).size ≤ rb.cap) ∧
  (∀ (s t : State) (rb : RingBuffer), s.Inv → step s = .next t → s.rb = some rb →
    ∃ rb', t.rb = some rb' ∧ rb.hwm ≤ rb'.hwm ∧ rb'.hwm ≤ rb'.cap)

/-! ## RB.PUT, RB.GET, RB.CLEAR -/

/-- 40_ring_buffer_mutators.md R144: what RB.PUT changes, and that it changes nothing else. -/
def Obligations.RbPutStoresAtHeadAndAdvances : Prop :=
  ∀ (s : State) (rb : RingBuffer) (f : Frame), s.rb = some rb → RingBuffer.Inv s.config rb →
    ∃ slots',
      exec (.rbPut f) s = .next
        { s with
          rb := some
            { rb with
              slots := slots'
              head := (rb.head + 1) % rb.cap
              tail := if rb.full then (rb.tail + 1) % rb.cap else rb.tail
              full := decide (rb.cap ≤ rb.size + 1)
              size := if rb.full then rb.cap else rb.size + 1
              hwm := max rb.hwm (if rb.full then rb.cap else rb.size + 1)
              puts := (rb.puts + 1) % 2 ^ s.config.cntW
              overflows := if rb.full then (rb.overflows + 1) % 2 ^ s.config.cntW else rb.overflows }
          out := { res := some (.bit rb.full), commands := [], strobe := none } } ∧
      Memory.wf slots' = true ∧
      Memory.read slots' rb.head = some f ∧
      (∀ i, i ≠ rb.head → Memory.read slots' i = Memory.read rb.slots i)

/-- 40_ring_buffer_mutators.md R145, where a frame is present: RB.GET returns the frame at the tail with `valid` and takes it. -/
def Obligations.RbGetTakesFrameAtTail : Prop :=
  ∀ (s : State) (rb : RingBuffer), s.rb = some rb → RingBuffer.Inv s.config rb → 0 < rb.size →
    ∃ f, Memory.read rb.slots rb.tail = some f ∧
      exec .rbGet s = .next
        { s with
          rb := some
            { rb with
              full := false
              tail := (rb.tail + 1) % rb.cap
              size := rb.size - 1
              gets := (rb.gets + 1) % 2 ^ s.config.cntW }
          out := { res := some (.frame f true), commands := [], strobe := none } }

/-- 40_ring_buffer_mutators.md R145 (a) and 10_state.md R23: on an empty buffer RB.GET returns the all-zero frame without `valid`
and no register changes. -/
def Obligations.RbGetOnEmptyChangesNothing : Prop :=
  ∀ (s : State) (rb : RingBuffer), s.rb = some rb → RingBuffer.Inv s.config rb → rb.size = 0 →
    exec .rbGet s = .next
      { s with
        out :=
          { res := some (.frame { id := 0, len := 0, data := Vector.replicate 8 0, rtr := false, ext := false } false)
            commands := []
            strobe := none } } ∧
    (∀ t, exec .rbGet s = .next t → ∀ r, t.out.res = some r → r.word = 0)

/-- 40_ring_buffer_mutators.md R146: RB.CLEAR, in every state that has a ring buffer, and that the buffer is empty after it. -/
def Obligations.RbClearEmptiesAndKeepsCounters : Prop :=
  ∀ (s : State) (rb : RingBuffer), s.rb = some rb →
    exec .rbClear s = .next
      { s with
        rb := some { rb with head := 0, tail := 0, full := false, size := 0 }
        out := { res := none, commands := [], strobe := none } } ∧
    (∀ t rb', exec .rbClear s = .next t → t.rb = some rb' →
      rb'.isAvailable = false ∧ rb'.isEmpty = true ∧ rb'.occupancy = 0 ∧ rb'.contents = [])

/-- 00_scope.md R1, 40_ring_buffer_mutators.md R144 (b), R145, R146: the ring buffer is a first-in first-out queue of CAP frames
that discards its oldest frame when one is put while it is full. -/
def Obligations.RingBufferRefinesOverwritingQueue : Prop :=
  ∀ (s : State) (rb : RingBuffer), s.rb = some rb → RingBuffer.Inv s.config rb →
    rb.contents.length = rb.size ∧
    (∀ f, ∃ rb', exec (.rbPut f) s = .next ((s.withRb rb').report (some (.bit (decide (rb.contents.length = rb.cap))))) ∧
      RingBuffer.Inv s.config rb' ∧ rb'.contents = queuePut rb.cap rb.contents f) ∧
    (∀ f q, rb.contents = f :: q → ∃ rb', exec .rbGet s = .next ((s.withRb rb').report (some (.frame f true))) ∧
      RingBuffer.Inv s.config rb' ∧ rb'.contents = q) ∧
    (rb.contents = [] → exec .rbGet s = .next (s.report (some (.frame defaultFrame false)))) ∧
    (∃ rb', exec .rbClear s = .next ((s.withRb rb').report none) ∧ RingBuffer.Inv s.config rb' ∧ rb'.contents = [])

/-- 40_ring_buffer_mutators.md R147: the counting law, for every sequence of RB operations from reset. -/
def Obligations.RegistersHoldTrueCountsOfRun : Prop :=
  ∀ (c : Config) (cap : Nat) (ops : List Instr), 1 ≤ cap → cap ≤ c.capMax →
    (∀ i ∈ ops, unitOf (opcodeOf i) = 0) →
    ∃ s rb t, runTally ops (State.launchAlone c cap) {} = some (s, t) ∧ s.rb = some rb ∧
      (.rbClear ∉ ops → (rb.size : Int) = (t.puts : Int) - t.gets - t.overflows) ∧
      (rb.size : Int) = (t.putsSinceClear : Int) - t.getsSinceClear - t.overflowsSinceClear ∧
      rb.puts = t.puts % 2 ^ c.cntW ∧
      rb.gets = t.gets % 2 ^ c.cntW ∧
      rb.overflows = t.overflows % 2 ^ c.cntW ∧
      rb.hwm = t.largestSize

/-- 40_ring_buffer_mutators.md R148: FIFO order and what survives, for every sequence of RB operations from reset, and for n puts
into an empty buffer. -/
def Obligations.BufferHoldsTheLastFramesPut : Prop :=
  (∀ (c : Config) (cap : Nat) (ops : List Instr), 1 ≤ cap → cap ≤ c.capMax →
    (∀ i ∈ ops, unitOf (opcodeOf i) = 0) →
    ∃ s rb t, runTally ops (State.launchAlone c cap) {} = some (s, t) ∧ s.rb = some rb ∧
      rb.size ≤ t.history.length ∧
      rb.contents = t.history.drop (t.history.length - rb.size)) ∧
  (∀ (s : State) (rb : RingBuffer) (fs : List Frame), s.rb = some rb → RingBuffer.Inv s.config rb → rb.size = 0 →
    ∃ s' rb', runAll (fs.map Instr.rbPut) s = some s' ∧ s'.rb = some rb' ∧
      (fs.length ≤ rb.cap → rb'.contents = fs ∧ rb'.overflows = rb.overflows) ∧
      (∀ k, fs.length = rb.cap + k →
        rb'.contents = fs.drop k ∧ rb'.overflows = (rb.overflows + k) % 2 ^ s.config.cntW ∧
        ∀ f, fs[k]? = some f → ∃ t, exec .rbGet s' = .next t ∧ t.out.res = some (.frame f true)))

/-! ## The queries -/

/-- 41_ring_buffer_queries.md R160, R163, R164: the three predicates tell whether the buffer holds a frame, CAP frames or none,
and nothing but the result port changes. -/
def Obligations.RbPredicateQueriesAnswerFromSize : Prop :=
  ∀ (s : State) (rb : RingBuffer), s.rb = some rb → RingBuffer.Inv s.config rb →
    exec .rbAvailable s = .next
      { s with out := { res := some (.bit (decide (0 < rb.size))), commands := [], strobe := none } } ∧
    exec .rbFull s = .next
      { s with out := { res := some (.bit (decide (rb.size = rb.cap))), commands := [], strobe := none } } ∧
    exec .rbEmpty s = .next
      { s with out := { res := some (.bit (decide (rb.size = 0))), commands := [], strobe := none } }

/-- 41_ring_buffer_queries.md R161, R162: the size and the free slots, which sum to the capacity; the cache is rewritten with the
value it holds. -/
def Obligations.RbSizeAndFreeSlotsSumToCapacity : Prop :=
  ∀ (s : State) (rb : RingBuffer), s.rb = some rb → RingBuffer.Inv s.config rb →
    ∃ n m, n + m = rb.cap ∧ n = rb.size ∧ (n : Int) = (if rb.full then (rb.cap : Int) else ((rb.head : Int) - rb.tail) % rb.cap) ∧
      exec .rbSize s = .next { s with out := { res := some (.size n), commands := [], strobe := none } } ∧
      exec .rbFreeSlots s = .next { s with out := { res := some (.size m), commands := [], strobe := none } }

/-- 41_ring_buffer_queries.md R165 to R168: the four stored counts, with nothing but the result port changed. -/
def Obligations.RbCounterQueriesReadTheirRegister : Prop :=
  ∀ (s : State) (rb : RingBuffer), s.rb = some rb →
    exec .rbPuts s = .next { s with out := { res := some (.count rb.puts), commands := [], strobe := none } } ∧
    exec .rbGets s = .next { s with out := { res := some (.count rb.gets), commands := [], strobe := none } } ∧
    exec .rbOverflows s = .next { s with out := { res := some (.count rb.overflows), commands := [], strobe := none } } ∧
    exec .rbHwm s = .next { s with out := { res := some (.size rb.hwm), commands := [], strobe := none } }

/-- 41_ring_buffer_queries.md R160: RB.AVAILABLE whole: its encoding, its answer and what the answer equals, that nothing but the
result port changes, its corner cases, and that only the consumer's own get or clear makes a true answer false. -/
def Obligations.RbAvailableAnswerAndItsStaleness : Prop :=
  ∀ (s : State) (rb : RingBuffer), s.rb = some rb → RingBuffer.Inv s.config rb →
    encode s.config .rbAvailable = { op := 0x03, arg := 0 } ∧
    decode s.config { op := 0x03, arg := 0 } = .ok .rbAvailable ∧
    exec .rbAvailable s = .next
      { s with out := { res := some (.bit (rb.full || rb.head != rb.tail)), commands := [], strobe := none } } ∧
    (rb.full || rb.head != rb.tail) = decide (occ rb.cap rb.head rb.tail rb.full ≠ 0) ∧
    rb.clear.isAvailable = false ∧ (RingBuffer.construct rb.cap).isAvailable = false ∧
    (rb.full = true → rb.head = rb.tail ∧ rb.isAvailable = true) ∧
    (rb.cap = 1 → rb.isAvailable = rb.full) ∧
    (∀ (i : Instr) (t : State) (rb' : RingBuffer), exec i s = .next t → t.rb = some rb' → rb.isAvailable = true →
      rb'.isAvailable = false → i = .rbGet ∨ i = .faGetNextMessage ∨ i = .rbClear ∨ ∃ p b, i = .faBegin p b)

/-- 41_ring_buffer_queries.md R163: RB.FULL whole: its encoding, its answer, that it tells CAP frames, that only the consumer's
own get or clear makes a true answer false, and that a put can make a false answer true. -/
def Obligations.RbFullAnswerAndItsStaleness : Prop :=
  ∀ (s : State) (rb : RingBuffer), s.rb = some rb → RingBuffer.Inv s.config rb →
    encode s.config .rbFull = { op := 0x06, arg := 0 } ∧
    decode s.config { op := 0x06, arg := 0 } = .ok .rbFull ∧
    exec .rbFull s = .next { s with out := { res := some (.bit rb.full), commands := [], strobe := none } } ∧
    (rb.full = true ↔ rb.contents.length = rb.cap) ∧
    (∀ (i : Instr) (t : State) (rb' : RingBuffer), exec i s = .next t → t.rb = some rb' → rb.full = true →
      rb'.full = false → i = .rbGet ∨ i = .faGetNextMessage ∨ i = .rbClear ∨ ∃ p b, i = .faBegin p b) ∧
    (∀ (f : Frame) (t : State) (rb' : RingBuffer), exec (.rbPut f) s = .next t → t.rb = some rb' → rb.full = false →
      (rb'.full = true ↔ rb.size + 1 = rb.cap))

/-- 41_ring_buffer_queries.md R168: RB.HWM whole: its encoding, its answer, which fits SIZE_W bits, that no operation lowers it or
takes it above the capacity, and that once the buffer is full it is the capacity after every operation. -/
def Obligations.RbHwmAnswerAndItsBounds : Prop :=
  ∀ (s : State) (rb : RingBuffer), s.rb = some rb → RingBuffer.Inv s.config rb →
    encode s.config .rbHwm = { op := 0x0B, arg := 0 } ∧
    decode s.config { op := 0x0B, arg := 0 } = .ok .rbHwm ∧
    exec .rbHwm s = .next { s with out := { res := some (.size rb.hwm), commands := [], strobe := none } } ∧
    rb.hwm < 2 ^ s.config.sizeW ∧
    (∀ (i : Instr) (t : State) (rb' : RingBuffer), exec i s = .next t → t.rb = some rb' → (∀ p b, i ≠ .faBegin p b) →
      rb.hwm ≤ rb'.hwm ∧ rb'.hwm ≤ rb'.cap ∧ rb'.cap = rb.cap ∧
      (rb.full = true ∨ rb.hwm = rb.cap → rb'.hwm = rb'.cap))

/-- 10_state.md R34, R40: before construction there is no ring buffer, so an RB operation has no meaning (the refusal's name is
the model's). -/
def Obligations.RbOperationsNeedARingBuffer : Prop :=
  ∀ (s : State) (i : Instr), s.rb = none → unitOf (opcodeOf i) = 0 → exec i s = .refused .noRingBuffer

/-! ## Translation -/

/-- 42_frame_translation.md R182, R183: every field of the canonical frame a native frame becomes. -/
def Obligations.FromNativeCopiesAndZeroFills : Prop :=
  ∀ n : NativeFrame,
    (fromNative n).id = n.id ∧ (fromNative n).len = n.dlc ∧ (fromNative n).rtr = n.remote ∧ (fromNative n).ext = n.extended ∧
    (∀ (i : Nat) (h : i < 8), i < n.dlc.val → (fromNative n).data[i] = n.data[i]) ∧
    (∀ (i : Nat) (h : i < 8), n.dlc.val ≤ i → (fromNative n).data[i] = 0)

/-- 42_frame_translation.md R184, R183: every field of the native frame a canonical frame becomes. -/
def Obligations.ToNativeCopiesAndZeroFills : Prop :=
  ∀ f : Frame,
    (toNative f).id = f.id ∧ (toNative f).dlc = f.len ∧ (toNative f).remote = f.rtr ∧ (toNative f).extended = f.ext ∧
    (∀ (i : Nat) (h : i < 8), i < f.len.val → (toNative f).data[i] = f.data[i]) ∧
    (∀ (i : Nat) (h : i < 8), f.len.val ≤ i → (toNative f).data[i] = 0)

/-- 42_frame_translation.md R185: the round trips, and that in general only bytes at and beyond the length change, to zero. -/
def Obligations.TranslationRoundTrips : Prop :=
  (∀ f : Frame, (∀ (i : Nat) (h : i < 8), f.len.val ≤ i → f.data[i] = 0) → fromNative (toNative f) = f) ∧
  (∀ n : NativeFrame, (∀ (i : Nat) (h : i < 8), n.dlc.val ≤ i → n.data[i] = 0) → toNative (fromNative n) = n) ∧
  (∀ f : Frame, ∃ d : Payload, fromNative (toNative f) = { f with data := d } ∧
    ∀ (i : Nat) (h : i < 8), d[i] = if i < f.len.val then f.data[i] else 0) ∧
  (∀ n : NativeFrame, ∃ d : Payload, toNative (fromNative n) = { n with data := d } ∧
    ∀ (i : Nat) (h : i < 8), d[i] = if i < n.dlc.val then n.data[i] else 0)

/-! ## The frame adapter -/

/-- 43_frame_adapter.md R200: FA.BEGIN with a capacity in range. The clauses on `answers` and `draws` say where the answer of
Start() comes from, which is the model's (log 4); the answer itself is free. -/
def Obligations.FaBeginConstructsAndStarts : Prop :=
  ∀ (s : State) (pollingMode : Bool) (busInterface : Nat), s.allocated = false → 1 ≤ s.rxcap → s.rxcap ≤ s.config.capMax →
    ∃ ok answers' draws',
      exec (.faBegin pollingMode busInterface) s = .next
        { s with
          rb := some { cap := s.rxcap, head := 0, tail := 0, full := false, size := 0, puts := 0, gets := 0, overflows := 0,
                       hwm := 0, slots := [] }
          allocated := true
          started := ok
          answers := answers'
          draws := draws'
          out := { res := some (.bit ok)
                   commands := [.configureBitrate Config.bitrate, .registerCallback, .start]
                   strobe := none } } ∧
      (∀ a rest, s.answers = a :: rest → ok = a ∧ answers' = rest ∧ draws' = s.draws) ∧
      (s.answers = [] → answers' = [] ∧ draws' = s.draws + 1)

/-- 93_implementation_defined.md U1, U2, U3 (43_frame_adapter.md R200 (d), R201, R202, R203, R205, R206, R212 to R216): where the
adapter's operations are refused. The refusals' names are the model's, as is the last clause (log 12). -/
def Obligations.AdapterRefusalsByLifecycle : Prop :=
  (∀ (s : State) (p : Bool) (b : Nat), s.allocated = true → exec (.faBegin p b) s = .refused .beginTwice) ∧
  (∀ s : State, s.allocated = false →
    exec .faAvailable s = .refused .notBegun ∧ exec .faGetNextMessage s = .refused .notBegun ∧
    (∀ f r e v p, exec (.faSendMessage f r e v p) s = .refused .notBegun) ∧
    (∀ f, exec (.faSendMessageNoUpdate f) s = .refused .notBegun) ∧
    exec .faPuts s = .refused .notBegun ∧ exec .faGets s = .refused .notBegun ∧
    exec .faOverflows s = .refused .notBegun ∧ exec .faHwm s = .refused .notBegun) ∧
  (∀ (s : State) (rx tx : Nat), s.allocated = false → (rx = 0 ∨ s.config.capMax < rx) →
    exec (.faSetNumBuffers rx tx) s = .refused .badCapacity) ∧
  (∀ (s : State) (p : Bool) (b : Nat), s.allocated = false → (s.rxcap = 0 ∨ s.config.capMax < s.rxcap) →
    exec (.faBegin p b) s = .refused .badCapacity)

/-- 43_frame_adapter.md R201, R212, R213, R214, R216: after begin the delegating queries answer from the ring buffer. -/
def Obligations.FaQueriesAnswerFromTheRingBuffer : Prop :=
  ∀ (s : State) (rb : RingBuffer), s.allocated = true → s.rb = some rb → RingBuffer.Inv s.config rb →
    exec .faAvailable s = .next
      { s with out := { res := some (.bit (decide (0 < rb.size))), commands := [], strobe := none } } ∧
    exec .faPuts s = .next { s with out := { res := some (.count rb.puts), commands := [], strobe := none } } ∧
    exec .faGets s = .next { s with out := { res := some (.count rb.gets), commands := [], strobe := none } } ∧
    exec .faOverflows s = .next { s with out := { res := some (.count rb.overflows), commands := [], strobe := none } } ∧
    exec .faHwm s = .next { s with out := { res := some (.size rb.hwm), commands := [], strobe := none } }

/-- 43_frame_adapter.md R202: FA.GETNEXTMESSAGE takes the oldest frame where there is one, and counts in `received` in either
case. -/
def Obligations.FaGetNextMessageTakesAndAlwaysCounts : Prop :=
  ∀ (s : State) (rb : RingBuffer), s.allocated = true → s.rb = some rb → RingBuffer.Inv s.config rb →
    (0 < rb.size → ∃ f, Memory.read rb.slots rb.tail = some f ∧
      exec .faGetNextMessage s = .next
        { s with
          rb := some
            { rb with
              full := false
              tail := (rb.tail + 1) % rb.cap
              size := rb.size - 1
              gets := (rb.gets + 1) % 2 ^ s.config.cntW }
          received := (s.received + 1) % 2 ^ s.config.cntW
          out := { res := some (.frame f true), commands := [], strobe := none } }) ∧
    (rb.size = 0 →
      exec .faGetNextMessage s = .next
        { s with
          received := (s.received + 1) % 2 ^ s.config.cntW
          out := { res := some (.frame defaultFrame false), commands := [], strobe := none } })

/-- 42_frame_translation.md R186: the stamped frame differs from the operand in the identifier and the two flags only, and the
operand's own flags do not matter. -/
def Obligations.StampingChangesIdentifierAndFlagsOnly : Prop :=
  ∀ (f : Frame) (r e : Bool) (p : Nat),
    (stampFrame f r e p).id = Config.stamp f p ∧ (stampFrame f r e p).rtr = r ∧ (stampFrame f r e p).ext = e ∧
    (stampFrame f r e p).len = f.len ∧ (stampFrame f r e p).data = f.data

/-- 43_frame_adapter.md R203, R204: FA.SENDMESSAGE submits the stamped frame, shows it to the observer with the result, and
counts only a success. Where the answer of Submit() comes from is the model's (log 4); the answer itself is free. -/
def Obligations.FaSendMessageStampsSubmitsAndCounts : Prop :=
  ∀ (s : State) (f : Frame) (r e v : Bool) (p : Nat), s.allocated = true →
    ∃ ok answers' draws' g,
      g = stampFrame f r e (if v then p else s.config.defaultPriority) ∧
      exec (.faSendMessage f r e v p) s = .next
        { s with
          sent := if ok then (s.sent + 1) % 2 ^ s.config.cntW else s.sent
          answers := answers'
          draws := draws'
          out := { res := some (.bit ok)
                   commands := [.submit (toNative g)]
                   strobe := if s.config.observer then some (g, ok) else none } } ∧
      (∀ a rest, s.answers = a :: rest → ok = a ∧ answers' = rest ∧ draws' = s.draws) ∧
      (s.answers = [] → answers' = [] ∧ draws' = s.draws + 1)

/-- 43_frame_adapter.md R205: FA.SENDMESSAGENOUPDATE submits the frame as it is, counts nothing and calls no observer. Where
the answer of Submit() comes from is the model's (log 4); the answer itself is free. -/
def Obligations.FaSendMessageNoUpdateSubmitsOnly : Prop :=
  ∀ (s : State) (f : Frame), s.allocated = true →
    ∃ ok answers' draws',
      exec (.faSendMessageNoUpdate f) s = .next
        { s with
          answers := answers'
          draws := draws'
          out := { res := some (.bit ok), commands := [.submit (toNative f)], strobe := none } } ∧
      (∀ a rest, s.answers = a :: rest → ok = a ∧ answers' = rest ∧ draws' = s.draws) ∧
      (s.answers = [] → answers' = [] ∧ draws' = s.draws + 1)

/-- 43_frame_adapter.md R206: FA.SETNUMBUFFERS sets the configured capacity before begin and has no effect after it. -/
def Obligations.FaSetNumBuffersConfiguresBeforeBegin : Prop :=
  (∀ (s : State) (rx tx : Nat), s.allocated = false → 1 ≤ rx → rx ≤ s.config.capMax →
    exec (.faSetNumBuffers rx tx) s = .next
      { s with rxcap := rx, out := { res := none, commands := [], strobe := none } }) ∧
  (∀ (s : State) (rx tx : Nat), s.allocated = true →
    exec (.faSetNumBuffers rx tx) s = .next { s with out := { res := none, commands := [], strobe := none } })

/-- 43_frame_adapter.md R207 to R211: the operations of the adapter that are legal in every state. -/
def Obligations.FaOperationsLegalInEveryState : Prop :=
  ∀ (s : State) (enabled : Bool),
    exec (.faSetDebug enabled) s = .next { s with debug := enabled, out := { res := none, commands := [], strobe := none } } ∧
    exec .faReset s = .next { s with out := { res := none, commands := [], strobe := none } } ∧
    exec .faPrintStatus s = .next { s with out := { res := none, commands := [], strobe := none } } ∧
    exec .faSent s = .next { s with out := { res := some (.count s.sent), commands := [], strobe := none } } ∧
    exec .faReceived s = .next { s with out := { res := some (.count s.received), commands := [], strobe := none } }

/-- 10_state.md R43, R45 and 43_frame_adapter.md R200 (c), R206 (d): the ignored operands and the debug flag have no effect:
whatever they are, every operation does the same to everything else. -/
def Obligations.IgnoredOperandsAndDebugHaveNoEffect : Prop :=
  (∀ (s : State) (p p' : Bool) (b b' : Nat), exec (.faBegin p b) s = exec (.faBegin p' b') s) ∧
  (∀ (s : State) (rx tx tx' : Nat), exec (.faSetNumBuffers rx tx) s = exec (.faSetNumBuffers rx tx') s) ∧
  (∀ (s : State) (f : Frame) (r e : Bool) (p p' : Nat),
    exec (.faSendMessage f r e false p) s = exec (.faSendMessage f r e false p') s) ∧
  (∀ (s t : State) (i : Instr) (d : Bool), (∀ b, i ≠ .faSetDebug b) → exec i s = .next t →
    t.debug = s.debug ∧ exec i { s with debug := d } = .next { t with debug := d })

/-! ## The events -/

/-- 60_exceptions.md R237: EV.RX_COMPLETE, after begin, puts the translated frame. -/
def Obligations.EvRxCompletePutsTranslatedFrame : Prop :=
  ∀ (s : State) (rb : RingBuffer) (n : NativeFrame), s.allocated = true → s.rb = some rb → RingBuffer.Inv s.config rb →
    ∃ slots' f,
      f.id = n.id ∧ f.len = n.dlc ∧ f.rtr = n.remote ∧ f.ext = n.extended ∧
      (∀ (i : Nat) (h : i < 8), f.data[i] = if i < n.dlc.val then n.data[i] else 0) ∧
      exec (.evRxComplete n) s = .next
        { s with
          rb := some
            { rb with
              slots := slots'
              head := (rb.head + 1) % rb.cap
              tail := if rb.full then (rb.tail + 1) % rb.cap else rb.tail
              full := decide (rb.cap ≤ rb.size + 1)
              size := if rb.full then rb.cap else rb.size + 1
              hwm := max rb.hwm (if rb.full then rb.cap else rb.size + 1)
              puts := (rb.puts + 1) % 2 ^ s.config.cntW
              overflows := if rb.full then (rb.overflows + 1) % 2 ^ s.config.cntW else rb.overflows }
          out := { res := none, commands := [], strobe := none } } ∧
      Memory.wf slots' = true ∧
      Memory.read slots' rb.head = some f ∧
      (∀ i, i ≠ rb.head → Memory.read slots' i = Memory.read rb.slots i)

/-- 60_exceptions.md R238 to R248: the encodings of the eleven events other than receive-complete (format N, no operand), and
that each changes no state, in every state. -/
def Obligations.ReportedEventsChangeNoState : Prop :=
  ∀ (c : Config) (s : State) (i : Instr) (op : Opcode),
    (i, op) ∈ ([(.evTxComplete, 0x81), (.evErrWarning, 0x82), (.evErrPassive, 0x83), (.evErrBusOff, 0x84),
      (.evBusRecovery, 0x85), (.evMailboxOverrun, 0x86), (.evBusLock, 0x87), (.evChannelError, 0x88), (.evTxAbort, 0x89),
      (.evGlobalError, 0x8A), (.evFifoEmpty, 0x8B)] : List (Instr × Opcode)) →
    encode c i = { op := op, arg := 0 } ∧
    decode c { op := op, arg := 0 } = .ok i ∧
    exec i s = .next { s with out := { res := none, commands := [], strobe := none } }

/-- 60_exceptions.md R236 (a): an event presented while the callback is not registered has no effect. That the model takes a
step for it, which drops it, is the model's choice (log 10). -/
def Obligations.EventBeforeRegistrationHasNoEffect : Prop :=
  ∀ (s : State) (i : Instr), s.allocated = false → unitOf (opcodeOf i) = 2 →
    exec i s = .next { s with out := { res := none, commands := [], strobe := none } }

/-- 70_reset_and_hazards.md R281: what producer steps leave true of a consumer's earlier answer, for any number of them. The
counters are compared where they do not wrap (00_scope.md R8). That events among them have a step while `allocated` is false is the
model's choice (log 10). -/
def Obligations.ProducerStepsKeepTrueAnswersTrue : Prop :=
  ∀ (s : State) (rb : RingBuffer) (evs : List Instr), s.rb = some rb → RingBuffer.Inv s.config rb →
    (∀ i ∈ evs, issuerOf (opcodeOf i) = .producer) →
    ∃ s' rb', runAll evs s = some s' ∧ s'.rb = some rb' ∧
      (rb.isAvailable = true → rb'.isAvailable = true) ∧
      (rb.full = true → rb'.full = true) ∧
      rb.size ≤ rb'.size ∧ rb'.cap - rb'.size ≤ rb.cap - rb.size ∧
      rb.hwm ≤ rb'.hwm ∧ rb'.gets = rb.gets ∧
      (rb.puts + evs.length < 2 ^ s.config.cntW → rb.puts ≤ rb'.puts) ∧
      (rb.overflows + evs.length < 2 ^ s.config.cntW → rb.overflows ≤ rb'.overflows)

/-! ## Encodings -/

/-- 30_encoding.md R101 to R106, R110 to R112: decoding an encoded well-formed operation gives it back. -/
def Obligations.DecodeInvertsEncode : Prop :=
  ∀ (c : Config) (i : Instr), i.wellFormed c = true → decode c (encode c i) = .ok i

/-- 30_encoding.md R101, R102: each word has one meaning: what decodes is well formed and encodes to that very word, which is
as wide as its format says. That a wider operand word does not decode is the model's reading of R102 (log 11). -/
def Obligations.EncodeInvertsDecode : Prop :=
  ∀ (c : Config) (w : OpWord) (i : Instr), decode c w = .ok i →
    i.wellFormed c = true ∧ encode c i = w ∧ w.arg < 2 ^ operandWidth c i

/-- 30_encoding.md R104, R105: the bits of a packed frame, canonical and native. -/
def Obligations.PackedFrameLayout : Prop :=
  (∀ f : Frame, packFrame f < 2 ^ 99 ∧
    (∀ (i : Nat) (h : i < 8), field (packFrame f) (8 * i) 8 = (f.data[i]).toNat) ∧
    field (packFrame f) 64 4 = f.len.val ∧ field (packFrame f) 68 29 = f.id.toNat ∧
    bitAt (packFrame f) 97 = f.rtr ∧ bitAt (packFrame f) 98 = f.ext) ∧
  (∀ n : NativeFrame, packNative n < 2 ^ 99 ∧
    (∀ (i : Nat) (h : i < 8), field (packNative n) (8 * i) 8 = (n.data[i]).toNat) ∧
    field (packNative n) 64 4 = n.dlc.val ∧ field (packNative n) 68 29 = n.id.toNat ∧
    bitAt (packNative n) 97 = n.remote ∧ bitAt (packNative n) 98 = n.extended) ∧
  (∀ w : Nat, 9 ≤ field w 64 4 → unpackFrame w = none ∧ unpackNative w = none)

/-- 30_encoding.md R102 (formats F, S) and R106 (format C): where the operands stand in the operand word. -/
def Obligations.OperandFieldPositions : Prop :=
  ∀ c : Config,
    (∀ f, operandWord c (.rbPut f) = packFrame f ∧ operandWord c (.faSendMessageNoUpdate f) = packFrame f) ∧
    (∀ n, operandWord c (.evRxComplete n) = packNative n) ∧
    (∀ f r e v p, field (operandWord c (.faSendMessage f r e v p)) 0 99 = packFrame f ∧
      bitAt (operandWord c (.faSendMessage f r e v p)) 99 = r ∧ bitAt (operandWord c (.faSendMessage f r e v p)) 100 = e ∧
      bitAt (operandWord c (.faSendMessage f r e v p)) 101 = v ∧
      field (operandWord c (.faSendMessage f r e v p)) 102 c.prioW = p % 2 ^ c.prioW) ∧
    (∀ pm bi, bitAt (operandWord c (.faBegin pm bi)) 0 = pm ∧
      field (operandWord c (.faBegin pm bi)) 1 c.busIfW = bi % 2 ^ c.busIfW) ∧
    (∀ rx tx, rx < 2 ^ c.sizeW → field (operandWord c (.faSetNumBuffers rx tx)) 0 c.sizeW = rx ∧
      field (operandWord c (.faSetNumBuffers rx tx)) c.sizeW c.sizeW = tx % 2 ^ c.sizeW) ∧
    (∀ b, bitAt (operandWord c (.faSetDebug b)) 0 = b)

/-- 30_encoding.md R113, R115, R104: reserved opcodes and reserved length patterns are no operation, and a step that takes one
is refused. That operand bits a format does not have are refused is the model's reading of R102 (log 11). -/
def Obligations.ReservedEncodingsAreRefused : Prop :=
  (∀ (c : Config) (w : OpWord),
    ((0x0C ≤ w.op.toNat ∧ w.op.toNat ≤ 0x3F) ∨ (0x4F ≤ w.op.toNat ∧ w.op.toNat ≤ 0x7F) ∨ 0x8C ≤ w.op.toNat) ↔
      decode c w = .error .reservedOpcode) ∧
  (∀ (c : Config) (w : OpWord), w.op = 0x00 ∨ w.op = 0x43 ∨ w.op = 0x44 ∨ w.op = 0x80 → 9 ≤ field w.arg 64 4 →
    ∀ i, decode c w ≠ .ok i) ∧
  (∀ (s s' : State) (a : Agent) (w : OpWord), takeNext s = some (a, w, s') → (∀ i, decode s.config w ≠ .ok i) →
    ∃ r, step s = .refused r ∧ (r = .reservedOpcode ∨ r = .reservedLength ∨ r = .operandTooWide))

/-- 95_test_vectors.md sections 0, 2 and 3: words written out from the encodings decode to the operations they stand for, one or
more of each unit. -/
def Obligations.WrittenOutWordsDecode : Prop :=
  decode Config.instanceT { op := 0b00000000, arg := 0x000001022000000000000B1B0 } =
    .ok (.rbPut { id := 0x102, len := 2, data := #v[0xB0, 0xB1, 0, 0, 0, 0, 0, 0], rtr := false, ext := false }) ∧
  decode Config.instanceT { op := 0b00000001, arg := 0 } = .ok .rbGet ∧
  decode Config.instanceT { op := 0b00001011, arg := 0 } = .ok .rbHwm ∧
  decode Config.instanceT { op := 0b01000000, arg := 0x055 } = .ok (.faBegin true 0x2A) ∧
  decode Config.instanceT { op := 0b01000101, arg := 0x0304 } = .ok (.faSetNumBuffers 4 3) ∧
  decode Config.instanceT { op := 0b01000011, arg := 0x0A600007A530000000000020190 } =
    .ok (.faSendMessage { id := 0x7A5, len := 3, data := #v[0x90, 0x01, 0x02, 0, 0, 0, 0, 0], rtr := true, ext := true }
      false false true 2) ∧
  decode Config.instanceT { op := 0b10000000, arg := 0x7FFFFFFF00000000000000000 } =
    .ok (.evRxComplete { id := 0x1FFFFFFF, dlc := 0, data := #v[0, 0, 0, 0, 0, 0, 0, 0], remote := true, extended := true }) ∧
  decode Config.instanceT { op := 0b10001001, arg := 0 } = .ok .evTxAbort

/-! ## The step -/

/-- 00_scope.md R17, 20_memory.md R78: a step takes the next presentation of its agent and, where the port accepts the operation
it decodes to, does exactly what exec does with that operation. -/
def Obligations.StepRunsTheDecodedOperation : Prop :=
  (∀ (s : State) (w : OpWord) (ws : List OpWord) (i : Instr), s.consumerPort = w :: ws → s.producerPort = [] →
    decode s.config w = .ok i → accepts (portOf s.deployment .consumer) w.op = true →
    step s = exec i { s with consumerPort := ws }) ∧
  (∀ (s : State) (w : OpWord) (ws : List OpWord) (i : Instr), s.producerPort = w :: ws → s.consumerPort = [] →
    decode s.config w = .ok i → accepts (portOf s.deployment .producer) w.op = true →
    step s = exec i { s with producerPort := ws })

/-- 20_memory.md R81, 60_exceptions.md R236 (c): presentations of both agents at once are serialised in either order: the
environment's order where it gives one (`turns`, the model's field, log 5), otherwise one of the two. -/
def Obligations.CoincidentPresentationsInEitherOrder : Prop :=
  ∀ (s : State) (p q : OpWord) (ps qs : List OpWord) (i j : Instr),
    s.producerPort = p :: ps → s.consumerPort = q :: qs →
    decode s.config p = .ok i → decode s.config q = .ok j →
    accepts (portOf s.deployment .producer) p.op = true → accepts (portOf s.deployment .consumer) q.op = true →
    (∀ ts, s.turns = .producer :: ts → step s = exec i { s with producerPort := ps, turns := ts }) ∧
    (∀ ts, s.turns = .consumer :: ts → step s = exec j { s with consumerPort := qs, turns := ts }) ∧
    (s.turns = [] → step s = exec i { s with producerPort := ps, draws := s.draws + 1 } ∨
      step s = exec j { s with consumerPort := qs, draws := s.draws + 1 })

/-- 30_encoding.md R100, R113 and 60_exceptions.md R251: which operation each agent may issue, in the composed block and with RB
alone, and that a step refuses any other. -/
def Obligations.OperationsOnTheWrongPortAreRefused : Prop :=
  (∀ i : Instr,
    (accepts (portOf .composed .producer) (opcodeOf i) = true ↔ unitOf (opcodeOf i) = 2) ∧
    (accepts (portOf .composed .consumer) (opcodeOf i) = true ↔ unitOf (opcodeOf i) = 1) ∧
    (accepts (portOf .ringBufferAlone .producer) (opcodeOf i) = true ↔ ∃ f, i = .rbPut f) ∧
    (accepts (portOf .ringBufferAlone .consumer) (opcodeOf i) = true ↔ unitOf (opcodeOf i) = 0 ∧ ∀ f, i ≠ .rbPut f)) ∧
  (∀ (s s' : State) (a : Agent) (w : OpWord) (i : Instr), takeNext s = some (a, w, s') → decode s.config w = .ok i →
    accepts (portOf s.deployment a) w.op = false → step s = .refused .wrongPort)

/-- 00_scope.md R19: where nothing is presented nothing happens. That the model takes an idle step is the model's choice (log 7). -/
def Obligations.IdleStepChangesNoRegister : Prop :=
  ∀ s : State, s.producerPort = [] → s.consumerPort = [] →
    step s = .next { s with out := { res := none, commands := [], strobe := none } }

/-- 60_exceptions.md R230 and 20_memory.md R82: nothing traps, and in every state that meets the invariants an operation its port
accepts has a step exactly where the model's `admitted` says so. That is where the spec does not refuse it (U1, U2, U3), but for two
clauses that are the model's: an event while `allocated` is false has a step, which drops it, where 60_exceptions.md R236 (a) and U5
give the producer none (DESIGN CHOICE, log 10); FA.BEGIN has none where the configured capacity is out of range (DEDUCED, log 12).
The first clause holds because the model's Fault is an empty type, which is how the model states R230. -/
def Obligations.AcceptedOperationsNeverBlock : Prop :=
  (∀ (s : State) (r : Fault), step s ≠ .fault r) ∧
  (∀ (s : State) (a : Agent) (i : Instr), s.Inv → accepts (portOf s.deployment a) (opcodeOf i) = true →
    ((∃ t, exec i s = .next t) ↔ admitted s i = true))

/-! ## Reset and the invariants -/

/-- 70_reset_and_hazards.md R270: what reset leaves, for every instance: of the adapter, of RB used alone, and of the ring buffer
FA.BEGIN constructs; and that no event is handled before it. Three points are the model's: that such an event has a step, which
drops it (log 10), that RB alone is constructed at any capacity, also one outside 1..CAP_MAX, to which the spec gives no meaning
(log 16), and the parameters State.reset carries (log 1). -/
def Obligations.ResetLeavesTheStatedValues : Prop :=
  (∀ c : Config,
    (State.launch c).config = c ∧ (State.launch c).rb = none ∧ (State.launch c).rxcap = 16 ∧
    (State.launch c).allocated = false ∧ (State.launch c).started = false ∧ (State.launch c).debug = false ∧
    (State.launch c).sent = 0 ∧ (State.launch c).received = 0 ∧
    (∀ i, unitOf (opcodeOf i) = 2 → exec i (State.launch c) = .next ((State.launch c).report none))) ∧
  (∀ (c : Config) (cap : Nat), ∃ rb, (State.launchAlone c cap).rb = some rb ∧ rb.cap = cap ∧ rb.head = 0 ∧ rb.tail = 0 ∧
    rb.full = false ∧ rb.size = 0 ∧ rb.puts = 0 ∧ rb.gets = 0 ∧ rb.overflows = 0 ∧ rb.hwm = 0 ∧
    ∀ i, Memory.read rb.slots i = none) ∧
  (∀ (s t : State) (p : Bool) (b : Nat), exec (.faBegin p b) s = .next t →
    ∃ rb, t.rb = some rb ∧ rb.cap = s.rxcap ∧ rb.head = 0 ∧ rb.tail = 0 ∧ rb.full = false ∧ rb.size = 0 ∧ rb.puts = 0 ∧
      rb.gets = 0 ∧ rb.overflows = 0 ∧ rb.hwm = 0 ∧ ∀ i, Memory.read rb.slots i = none) ∧
  State.reset = State.launch Config.instanceT

/-- 10_state.md R29, R50 (the reset state): the invariants hold after reset, for every instance whose counters and capacity have
values at all. -/
def Obligations.InvariantsHoldAtReset : Prop :=
  (∀ c : Config, (State.launch c).Inv) ∧
  (∀ (c : Config) (cap : Nat), 1 ≤ cap → cap ≤ c.capMax → (State.launchAlone c cap).Inv) ∧
  State.reset.Inv

/-- 10_state.md R29, R50, 30_encoding.md R102: every step keeps the invariants, from every state that meets them. -/
def Obligations.StepKeepsTheInvariants : Prop :=
  ∀ s t : State, s.Inv → step s = .next t → t.Inv

/-- 00_scope.md R7 to R14 (fixed at launch), 10_state.md R34, R42: no step changes a launch parameter or the use of the block,
clears `allocated`, removes the ring buffer, or changes its capacity. -/
def Obligations.LaunchParametersAndCapacityAreFixed : Prop :=
  ∀ s t : State, s.Inv → step s = .next t →
    t.config = s.config ∧ t.deployment = s.deployment ∧ (s.allocated = true → t.allocated = true) ∧
    (∀ rb, s.rb = some rb → ∃ rb', t.rb = some rb' ∧ rb'.cap = rb.cap) ∧
    (s.allocated = true → t.rxcap = s.rxcap ∧ t.started = s.started)

/-- 10_state.md R50, column "written by", and 43_frame_adapter.md R204, 60_exceptions.md R250 for the outputs: no operation changes
a register, or drives an output, that is not among those the table gives it. -/
def Obligations.RegistersChangeOnlyByTheirOperations : Prop :=
  ∀ (s t : State) (i : Instr), exec i s = .next t →
    t.config = s.config ∧ t.deployment = s.deployment ∧
    t.producerPort = s.producerPort ∧ t.consumerPort = s.consumerPort ∧ t.turns = s.turns ∧
    (t.sent ≠ s.sent → ∃ f r e v p, i = .faSendMessage f r e v p) ∧
    (t.received ≠ s.received → i = .faGetNextMessage) ∧
    (t.debug ≠ s.debug → ∃ b, i = .faSetDebug b) ∧
    (t.rxcap ≠ s.rxcap → s.allocated = false ∧ ∃ rx tx, i = .faSetNumBuffers rx tx) ∧
    (t.allocated ≠ s.allocated ∨ t.started ≠ s.started → ∃ p b, i = .faBegin p b) ∧
    (t.answers ≠ s.answers ∨ t.draws ≠ s.draws ∨ t.out.commands ≠ [] → (∃ p b, i = .faBegin p b) ∨
      (∃ f r e v p, i = .faSendMessage f r e v p) ∨ ∃ f, i = .faSendMessageNoUpdate f) ∧
    (t.out.strobe ≠ none → s.config.observer = true ∧ ∃ f r e v p, i = .faSendMessage f r e v p) ∧
    (t.rb.isSome ≠ s.rb.isSome → ∃ p b, i = .faBegin p b) ∧
    (∀ rb rb', s.rb = some rb → t.rb = some rb' → (∀ p b, i ≠ .faBegin p b) →
      rb'.cap = rb.cap ∧
      (rb'.head ≠ rb.head → (∃ f, i = .rbPut f) ∨ (∃ n, i = .evRxComplete n) ∨ i = .rbClear) ∧
      (rb'.tail ≠ rb.tail ∨ rb'.full ≠ rb.full →
        (∃ f, i = .rbPut f) ∨ (∃ n, i = .evRxComplete n) ∨ i = .rbGet ∨ i = .faGetNextMessage ∨ i = .rbClear) ∧
      (rb'.size ≠ rb.size →
        (∃ f, i = .rbPut f) ∨ (∃ n, i = .evRxComplete n) ∨ i = .rbGet ∨ i = .faGetNextMessage ∨ i = .rbClear ∨
          i = .rbSize ∨ i = .rbFreeSlots) ∧
      (rb'.puts ≠ rb.puts ∨ rb'.overflows ≠ rb.overflows ∨ rb'.hwm ≠ rb.hwm →
        (∃ f, i = .rbPut f) ∨ ∃ n, i = .evRxComplete n) ∧
      (rb'.gets ≠ rb.gets → i = .rbGet ∨ i = .faGetNextMessage))

/-- 10_state.md R24, R40, 20_memory.md R71: the slots are written only by a put, and only at the head. -/
def Obligations.OnlyPutsWriteSlots : Prop :=
  ∀ (s t : State) (rb rb' : RingBuffer) (i : Instr), exec i s = .next t → s.rb = some rb → t.rb = some rb' →
    (∀ p b, i ≠ .faBegin p b) →
    ((∀ f, i ≠ .rbPut f) → (∀ n, i ≠ .evRxComplete n) → rb'.slots = rb.slots) ∧
    (∀ j, j ≠ rb.head → Memory.read rb'.slots j = Memory.read rb.slots j)

/-- 30_encoding.md R100, R101: presenting a word of the opcode table makes the very next step run it, whatever else is presented:
the block is in the use whose port accepts the opcode, and nothing else differs. What is placed, and where, is the model's
choice (log 6), and so is constructing RB alone at the configured capacity without checking it (log 16). -/
def Obligations.PresentedTableWordRunsNext : Prop :=
  ∀ (s : State) (nbits w : Nat) (i : Instr), decode s.config (tableWord nbits w) = .ok i →
    step (s.withFetchWord nbits w) =
      exec i (if unitOf (opcodeOf i) = 0 then
        { s with deployment := .ringBufferAlone, rb := some (s.rb.getD (RingBuffer.construct s.rxcap)) }
      else { s with deployment := .composed })
end

