-- ==== Sys2Proof/Laws/Encoding.lean ====
section
/-! SUPPORT. The bits of packed frames, and what packing and unpacking make of each other. -/

namespace Sys2Proof

/-- Every number from 0 to `n` fits `bitLength n` bits. -/
theorem lt_two_pow_bitLength (n : Nat) : n < 2 ^ bitLength n := by
  unfold bitLength
  split
  · simp [*]
  · exact Nat.lt_log2_self

theorem bitAt_eq (w i : Nat) : bitAt w i = (field w i 1 == 1) := rfl

/-- A bit and its value as a number. -/
theorem toNat_beq_one (b : Bool) : (b.toNat == 1) = b := by cases b <;> rfl

/-- The payload occupies 64 bits. -/
theorem payloadWord_lt (d : Payload) : payloadWord d < 2 ^ 64 := by
  have h0 := d[0].isLt
  have h1 := d[1].isLt
  have h2 := d[2].isLt
  have h3 := d[3].isLt
  have h4 := d[4].isLt
  have h5 := d[5].isLt
  have h6 := d[6].isLt
  have h7 := d[7].isLt
  unfold payloadWord
  omega

/-- The bytes of a payload word, whatever stands above it. -/
theorem field_payloadWord (d : Payload) (x i : Nat) (h : i < 8) :
    field (payloadWord d + x * 2 ^ 64) (8 * i) 8 = d[i].toNat := by
  have h0 := d[0].isLt
  have h1 := d[1].isLt
  have h2 := d[2].isLt
  have h3 := d[3].isLt
  have h4 := d[4].isLt
  have h5 := d[5].isLt
  have h6 := d[6].isLt
  have h7 := d[7].isLt
  unfold field payloadWord
  interval_cases i <;> omega

section
variable (id : Identifier) (len : PayloadLength) (data : Payload) (remote extended : Bool)

theorem frameWord_eq : frameWord id len data remote extended =
    payloadWord data + (len.val + id.toNat * 2 ^ 4 + remote.toNat * 2 ^ 33 + extended.toNat * 2 ^ 34) * 2 ^ 64 := by
  unfold frameWord
  omega

/-- A packed frame occupies 99 bits. -/
theorem frameWord_lt : frameWord id len data remote extended < 2 ^ 99 := by
  have := payloadWord_lt data
  have := id.isLt
  have := len.isLt
  have := Bool.toNat_le remote
  have := Bool.toNat_le extended
  unfold frameWord
  omega

theorem field_frameWord_data (x i : Nat) (h : i < 8) :
    field (frameWord id len data remote extended + x * 2 ^ 99) (8 * i) 8 = data[i].toNat := by
  have e : frameWord id len data remote extended + x * 2 ^ 99 = payloadWord data +
      (len.val + id.toNat * 2 ^ 4 + remote.toNat * 2 ^ 33 + extended.toNat * 2 ^ 34 + x * 2 ^ 35) * 2 ^ 64 := by
    rw [frameWord_eq]
    omega
  rw [e, field_payloadWord]

theorem field_frameWord_len (x : Nat) : field (frameWord id len data remote extended + x * 2 ^ 99) 64 4 = len.val := by
  have := payloadWord_lt data
  have := id.isLt
  have := len.isLt
  have := Bool.toNat_le remote
  have := Bool.toNat_le extended
  unfold field frameWord
  omega

theorem field_frameWord_id (x : Nat) : field (frameWord id len data remote extended + x * 2 ^ 99) 68 29 = id.toNat := by
  have := payloadWord_lt data
  have := id.isLt
  have := len.isLt
  have := Bool.toNat_le remote
  have := Bool.toNat_le extended
  unfold field frameWord
  omega

theorem bitAt_frameWord_remote (x : Nat) : bitAt (frameWord id len data remote extended + x * 2 ^ 99) 97 = remote := by
  have := payloadWord_lt data
  have := id.isLt
  have := len.isLt
  have := Bool.toNat_le remote
  have := Bool.toNat_le extended
  have e : field (frameWord id len data remote extended + x * 2 ^ 99) 97 1 = remote.toNat := by
    unfold field frameWord
    omega
  rw [bitAt_eq, e, toNat_beq_one]

theorem bitAt_frameWord_extended (x : Nat) : bitAt (frameWord id len data remote extended + x * 2 ^ 99) 98 = extended := by
  have := payloadWord_lt data
  have := id.isLt
  have := len.isLt
  have := Bool.toNat_le remote
  have := Bool.toNat_le extended
  have e : field (frameWord id len data remote extended + x * 2 ^ 99) 98 1 = extended.toNat := by
    unfold field frameWord
    omega
  rw [bitAt_eq, e, toNat_beq_one]

theorem payloadOf_frameWord (x : Nat) : payloadOf (frameWord id len data remote extended + x * 2 ^ 99) = data := by
  apply Vector.ext
  intro i h
  simp only [payloadOf, Vector.getElem_ofFn]
  rw [field_frameWord_data _ _ _ _ _ _ _ h]
  simp

end

/-- Unpacking a packed frame gives it back, whatever stands above its 99 bits. -/
theorem unpackFrame_packFrame (f : Frame) (x : Nat) : unpackFrame (packFrame f + x * 2 ^ 99) = some f := by
  have hl := f.len.isLt
  simp only [unpackFrame, packFrame, field_frameWord_len, field_frameWord_id, payloadOf_frameWord, bitAt_frameWord_remote,
    bitAt_frameWord_extended]
  simp [hl]

/-- Unpacking a packed native frame gives it back, whatever stands above its 99 bits. -/
theorem unpackNative_packNative (n : NativeFrame) (x : Nat) : unpackNative (packNative n + x * 2 ^ 99) = some n := by
  have hl := n.dlc.isLt
  simp only [unpackNative, packNative, field_frameWord_len, field_frameWord_id, payloadOf_frameWord, bitAt_frameWord_remote,
    bitAt_frameWord_extended]
  simp [hl]

theorem packFrame_lt (f : Frame) : packFrame f < 2 ^ 99 := frameWord_lt ..

theorem packNative_lt (n : NativeFrame) : packNative n < 2 ^ 99 := frameWord_lt ..

/-- The value of a bit of a word. -/
theorem bitAt_toNat (w i : Nat) : (bitAt w i).toNat = field w i 1 := by
  have h : field w i 1 < 2 := Nat.mod_lt _ (by decide)
  unfold bitAt
  interval_cases field w i 1 <;> rfl

theorem payloadWord_payloadOf (w : Nat) : payloadWord (payloadOf w) = w % 2 ^ 64 := by
  simp only [payloadWord, payloadOf, Vector.getElem_ofFn, BitVec.toNat_ofNat, field]
  omega

/-- The layout reads back as the low 99 bits of the word its fields came from. -/
theorem frameWord_fields (w : Nat) (h : field w 64 4 < 9) :
    frameWord (BitVec.ofNat 29 (field w 68 29)) ⟨field w 64 4, h⟩ (payloadOf w) (bitAt w 97) (bitAt w 98) = w % 2 ^ 99 := by
  simp only [frameWord, payloadWord_payloadOf, bitAt_toNat, BitVec.toNat_ofNat, field]
  omega

/-- Packing an unpacked frame gives the low 99 bits of the word. -/
theorem packFrame_unpackFrame {w : Nat} {f : Frame} (h : unpackFrame w = some f) : packFrame f = w % 2 ^ 99 := by
  unfold unpackFrame at h
  split at h
  · cases h
    exact frameWord_fields w ‹_›
  · cases h

/-- Packing an unpacked native frame gives the low 99 bits of the word. -/
theorem packNative_unpackNative {w : Nat} {n : NativeFrame} (h : unpackNative w = some n) : packNative n = w % 2 ^ 99 := by
  unfold unpackNative at h
  split at h
  · cases h
    exact frameWord_fields w ‹_›
  · cases h

/-! ### operand words -/

section
variable {c : Config} {arg : Nat} {i : Instr}

/-- The decoder at each opcode whose format has an operand word. -/
theorem decode_rbPut : decode c { op := 0x00, arg := arg } = operandOf 99 arg (frameOperand arg .rbPut) := rfl

theorem decode_faBegin : decode c { op := 0x40, arg := arg } =
    operandOf (1 + c.busIfW) arg (.ok (.faBegin (bitAt arg 0) (arg / 2))) := rfl

theorem decode_faSendMessage : decode c { op := 0x43, arg := arg } =
    operandOf (102 + c.prioW) arg (frameOperand arg fun f =>
      .faSendMessage f (bitAt arg 99) (bitAt arg 100) (bitAt arg 101) (arg / 2 ^ 102)) := rfl

theorem decode_faSendMessageNoUpdate : decode c { op := 0x44, arg := arg } =
    operandOf 99 arg (frameOperand arg .faSendMessageNoUpdate) := rfl

theorem decode_faSetNumBuffers : decode c { op := 0x45, arg := arg } =
    operandOf (2 * c.sizeW) arg (.ok (.faSetNumBuffers (arg % 2 ^ c.sizeW) (arg / 2 ^ c.sizeW))) := rfl

theorem decode_faSetDebug : decode c { op := 0x46, arg := arg } =
    operandOf 1 arg (.ok (.faSetDebug (bitAt arg 0))) := rfl

theorem decode_evRxComplete : decode c { op := 0x80, arg := arg } =
    operandOf 99 arg (nativeOperand arg .evRxComplete) := rfl

/-- An operation without an operand word decodes only from the operand 0. -/
theorem noOperand_ok {j : Instr} (h : noOperand j arg = .ok i) : i = j ∧ arg = 0 := by
  unfold noOperand at h
  split at h
  · cases h
    exact ⟨rfl, ‹_›⟩
  · cases h

/-- What decodes from an operand word fits it. -/
theorem operandOf_ok {w : Nat} {e : Except DecodeError Instr} (h : operandOf w arg e = .ok i) : e = .ok i ∧ arg < 2 ^ w := by
  unfold operandOf at h
  split at h
  · exact ⟨h, ‹_›⟩
  · cases h

theorem operandOf_lt {w : Nat} (e : Except DecodeError Instr) (h : arg < 2 ^ w) : operandOf w arg e = e := by
  rw [operandOf, if_pos h]

/-- What decodes from a packed frame packs back to the low 99 bits. -/
theorem frameOperand_ok {k : Frame → Instr} (h : frameOperand arg k = .ok i) :
    ∃ f, i = k f ∧ packFrame f = arg % 2 ^ 99 := by
  unfold frameOperand at h
  split at h
  · cases h
    exact ⟨_, rfl, packFrame_unpackFrame ‹_›⟩
  · cases h

theorem nativeOperand_ok {k : NativeFrame → Instr} (h : nativeOperand arg k = .ok i) :
    ∃ n, i = k n ∧ packNative n = arg % 2 ^ 99 := by
  unfold nativeOperand at h
  split at h
  · cases h
    exact ⟨_, rfl, packNative_unpackNative ‹_›⟩
  · cases h

theorem frameOperand_packFrame (f : Frame) (x : Nat) (k : Frame → Instr) :
    frameOperand (packFrame f + x * 2 ^ 99) k = .ok (k f) := by
  rw [frameOperand, unpackFrame_packFrame]

theorem nativeOperand_packNative (n : NativeFrame) (x : Nat) (k : NativeFrame → Instr) :
    nativeOperand (packNative n + x * 2 ^ 99) k = .ok (k n) := by
  rw [nativeOperand, unpackNative_packNative]

/-- A reserved length pattern is no frame. -/
theorem frameOperand_reserved (k : Frame → Instr) (h : 9 ≤ field arg 64 4) : frameOperand arg k = .error .reservedLength := by
  rw [frameOperand, unpackFrame, dif_neg (Nat.not_lt.2 h)]

theorem nativeOperand_reserved (k : NativeFrame → Instr) (h : 9 ≤ field arg 64 4) :
    nativeOperand arg k = .error .reservedLength := by
  rw [nativeOperand, unpackNative, dif_neg (Nat.not_lt.2 h)]

/-- The opcode of what decodes is the opcode presented. -/
theorem decode_opcode {w : OpWord} (h : decode c w = .ok i) : opcodeOf i = w.op := by
  obtain ⟨op, arg⟩ := w
  simp only [decode] at h
  show opcodeOf i = op
  apply BitVec.eq_of_toNat_eq
  split at h
  all_goals first
    | (obtain ⟨rfl, -⟩ := noOperand_ok h; simp [opcodeOf, *])
    | (obtain ⟨f, rfl, -⟩ := frameOperand_ok (operandOf_ok h).1; simp [opcodeOf, *])
    | (obtain ⟨n, rfl, -⟩ := nativeOperand_ok (operandOf_ok h).1; simp [opcodeOf, *])
    | (cases (operandOf_ok h).1; simp [opcodeOf, *])
    | cases h

end

/-- The operand word of a send is a packed frame with the three flags and the priority above it. -/
theorem sendWord_eq (f : Frame) (r e v : Bool) (p : Nat) :
    packFrame f + r.toNat * 2 ^ 99 + e.toNat * 2 ^ 100 + v.toNat * 2 ^ 101 + p * 2 ^ 102 =
      packFrame f + (r.toNat + e.toNat * 2 + v.toNat * 4 + p * 8) * 2 ^ 99 := by omega

/-- The fields of the operand word of a send. -/
theorem sendWord_fields (f : Frame) (r e v : Bool) (p : Nat) :
    let w := packFrame f + r.toNat * 2 ^ 99 + e.toNat * 2 ^ 100 + v.toNat * 2 ^ 101 + p * 2 ^ 102
    field w 0 99 = packFrame f ∧ bitAt w 99 = r ∧ bitAt w 100 = e ∧ bitAt w 101 = v ∧ w / 2 ^ 102 = p := by
  intro w
  have := packFrame_lt f
  have := Bool.toNat_le r
  have := Bool.toNat_le e
  have := Bool.toNat_le v
  refine ⟨?_, ?_, ?_, ?_, ?_⟩
  · simp only [field, w]
    omega
  · have h : field w 99 1 = r.toNat := by
      simp only [field, w]
      omega
    rw [bitAt_eq, h, toNat_beq_one]
  · have h : field w 100 1 = e.toNat := by
      simp only [field, w]
      omega
    rw [bitAt_eq, h, toNat_beq_one]
  · have h : field w 101 1 = v.toNat := by
      simp only [field, w]
      omega
    rw [bitAt_eq, h, toNat_beq_one]
  · simp only [w]
    omega

/-- The operand word of a send fits its width where the priority fits. -/
theorem sendWord_lt (f : Frame) (r e v : Bool) {p n : Nat} (hp : p < 2 ^ n) :
    packFrame f + r.toNat * 2 ^ 99 + e.toNat * 2 ^ 100 + v.toNat * 2 ^ 101 + p * 2 ^ 102 < 2 ^ (102 + n) := by
  have := packFrame_lt f
  have := Bool.toNat_le r
  have := Bool.toNat_le e
  have := Bool.toNat_le v
  have h : packFrame f + r.toNat * 2 ^ 99 + e.toNat * 2 ^ 100 + v.toNat * 2 ^ 101 + p * 2 ^ 102 < 2 ^ 102 * (p + 1) := by
    omega
  rw [Nat.pow_add]
  exact Nat.lt_of_lt_of_le h (Nat.mul_le_mul_left _ hp)

/-- The fields of the operand word of a begin. -/
theorem beginWord_fields (a : Bool) (b : Nat) : bitAt (a.toNat + b * 2) 0 = a ∧ (a.toNat + b * 2) / 2 = b := by
  have := Bool.toNat_le a
  constructor
  · have h : field (a.toNat + b * 2) 0 1 = a.toNat := by
      simp only [field]
      omega
    rw [bitAt_eq, h, toNat_beq_one]
  · omega

/-- The two halves of the operand word that sets the capacities. -/
theorem capacityWord_fields {n a b : Nat} (h : a < 2 ^ n) :
    (a + b * 2 ^ n) % 2 ^ n = a ∧ (a + b * 2 ^ n) / 2 ^ n = b := by
  constructor
  · rw [Nat.add_mul_mod_self_right, Nat.mod_eq_of_lt h]
  · rw [Nat.add_mul_div_right _ _ (Nat.two_pow_pos n), Nat.div_eq_of_lt h, Nat.zero_add]

end Sys2Proof
end

