-- ==== Sys2Proof/Laws/Memory.lean ====
section
/-! SUPPORT. The slot memory: read after write, and that a write keeps the canonical form. -/

namespace Sys2Proof.Machine

/-- A slot reads as what was written to it. -/
@[simp] theorem Memory.read_write_self (m : Memory) (i : Nat) (f : Frame) :
    Memory.read (Memory.write m i f) i = some f := by
  induction m with
  | nil => simp [Memory.write, Memory.read]
  | cons e m ih =>
    obtain ⟨k, g⟩ := e
    unfold Memory.write
    split
    · simp [Memory.read]
    · split
      · simp [Memory.read]
      · rename_i hne
        simp [Memory.read, ih, Ne.symm hne]

/-- A write leaves every other slot as it was. -/
theorem Memory.read_write_ne (m : Memory) {i j : Nat} (f : Frame) (h : j ≠ i) :
    Memory.read (Memory.write m i f) j = Memory.read m j := by
  induction m with
  | nil => simp [Memory.write, Memory.read, Ne.symm h]
  | cons e m ih =>
    obtain ⟨k, g⟩ := e
    unfold Memory.write
    split
    · simp [Memory.read, Ne.symm h]
    · split
      · subst_vars
        simp [Memory.read, Ne.symm h]
      · simp [Memory.read, ih]

/-- The canonical form says that the first index is below all others, and the rest is in canonical form. -/
theorem Memory.wf_cons {k : Nat} {g : Frame} {m : Memory} :
    Memory.wf ((k, g) :: m) = true ↔ (∀ e ∈ m, k < e.1) ∧ Memory.wf m = true := by
  induction m generalizing k g with
  | nil => simp [Memory.wf]
  | cons e m ih =>
    obtain ⟨k', g'⟩ := e
    simp only [Memory.wf, Bool.and_eq_true, decide_eq_true_eq, List.mem_cons, forall_eq_or_imp]
    constructor
    · rintro ⟨hlt, hm⟩
      exact ⟨⟨hlt, fun e he => Nat.lt_trans hlt ((ih.1 hm).1 e he)⟩, hm⟩
    · rintro ⟨⟨hlt, -⟩, hm⟩
      exact ⟨hlt, hm⟩

/-- What a write lists: the written index, or one listed before. -/
theorem Memory.mem_write {m : Memory} {i : Nat} {f : Frame} {e : Nat × Frame} (h : e ∈ Memory.write m i f) :
    e = (i, f) ∨ e ∈ m := by
  induction m with
  | nil => simpa [Memory.write] using h
  | cons d m ih =>
    obtain ⟨k, g⟩ := d
    unfold Memory.write at h
    split at h
    · simpa using h
    · split at h
      · rcases List.mem_cons.1 h with h | h
        · exact .inl h
        · exact .inr (List.mem_cons_of_mem _ h)
      · rcases List.mem_cons.1 h with h | h
        · exact .inr (h ▸ List.mem_cons_self)
        · rcases ih h with h | h
          · exact .inl h
          · exact .inr (List.mem_cons_of_mem _ h)

/-- A write keeps the canonical form. -/
theorem Memory.wf_write {m : Memory} (i : Nat) (f : Frame) (h : Memory.wf m = true) :
    Memory.wf (Memory.write m i f) = true := by
  induction m with
  | nil => rfl
  | cons e m ih =>
    obtain ⟨k, g⟩ := e
    obtain ⟨hlow, hm⟩ := Memory.wf_cons.1 h
    unfold Memory.write
    split
    · rename_i hik
      refine Memory.wf_cons.2 ⟨?_, h⟩
      intro e he
      rcases List.mem_cons.1 he with rfl | he
      · exact hik
      · exact Nat.lt_trans hik (hlow e he)
    · split
      · subst_vars
        exact Memory.wf_cons.2 ⟨hlow, hm⟩
      · refine Memory.wf_cons.2 ⟨?_, ih hm⟩
        intro e he
        rcases Memory.mem_write he with rfl | he
        · omega
        · exact hlow e he

/-- A write within a bound keeps every index within it. -/
theorem Memory.write_lt {m : Memory} {i n : Nat} (f : Frame) (hi : i < n) (h : ∀ e ∈ m, e.1 < n) :
    ∀ e ∈ Memory.write m i f, e.1 < n := by
  intro e he
  rcases Memory.mem_write he with rfl | he
  · exact hi
  · exact h e he

end Sys2Proof.Machine
end

