-- ==== Sys2Proof/Laws/RingBuffer.lean ====
section
/-! SUPPORT. What put, get and clear do to a ring buffer that meets its invariants: their registers, the invariants again, and
the frames held. -/

namespace Sys2Proof.Machine

variable {c : Config} {rb : RingBuffer}

/-- An index reduced into the array. -/
theorem wrap_eq {cap x : Nat} (h : x < 2 * cap) : x % cap = if x < cap then x else x - cap := by
  split
  · exact Nat.mod_eq_of_lt ‹_›
  · rw [Nat.mod_eq_sub_mod (by omega), Nat.mod_eq_of_lt (by omega)]

theorem RingBuffer.inc_eq {p : Nat} (h : p < rb.cap) : rb.inc p = if p + 1 = rb.cap then 0 else p + 1 := by
  unfold RingBuffer.inc
  rw [wrap_eq (by omega)]
  split <;> split <;> omega

/-- The occupancy in terms of where the head stands from the tail. -/
theorem RingBuffer.Inv.head_eq (h : RingBuffer.Inv c rb) : rb.head = (rb.tail + rb.size) % rb.cap := by
  have := h.head_lt
  have := h.tail_lt
  have hs := h.size_eq
  simp only [RingBuffer.occupancy, occ] at hs
  have hle : rb.size ≤ rb.cap := Nat.le_trans h.size_le_hwm h.hwm_le
  rw [wrap_eq (by omega)]
  cases hf : rb.full
  · simp only [hf, Bool.false_eq_true, if_false] at hs
    split at hs <;> split <;> omega
  · have := h.full_meets hf
    simp only [hf, if_true] at hs
    split <;> omega

theorem RingBuffer.Inv.size_le (h : RingBuffer.Inv c rb) : rb.size ≤ rb.cap := Nat.le_trans h.size_le_hwm h.hwm_le

/-- R29 (b): the full flag says that the buffer holds CAP frames. -/
theorem RingBuffer.Inv.full_iff (h : RingBuffer.Inv c rb) : rb.full = true ↔ rb.size = rb.cap := by
  have := h.head_lt
  have := h.tail_lt
  have hs := h.size_eq
  simp only [RingBuffer.occupancy, occ] at hs
  cases hf : rb.full
  · simp only [hf, Bool.false_eq_true, if_false] at hs
    simp only [Bool.false_eq_true, false_iff]
    split at hs <;> omega
  · simp only [hf, if_true] at hs
    simpa using hs

theorem RingBuffer.Inv.available_iff (h : RingBuffer.Inv c rb) : rb.isAvailable = true ↔ 0 < rb.size := by
  have := h.head_lt
  have := h.tail_lt
  have := h.cap_pos
  have hs := h.size_eq
  simp only [RingBuffer.occupancy, occ] at hs
  cases hf : rb.full
  · simp only [hf, Bool.false_eq_true, if_false] at hs
    simp only [RingBuffer.isAvailable, hf, Bool.false_or, bne_iff_ne, ne_eq]
    split at hs <;> omega
  · simp only [hf, if_true] at hs
    simp only [RingBuffer.isAvailable, hf, Bool.true_or, true_iff]
    omega

theorem RingBuffer.isEmpty_eq (rb : RingBuffer) : rb.isEmpty = !rb.isAvailable := by
  cases h : rb.full <;> simp [RingBuffer.isEmpty, RingBuffer.isAvailable, h, bne]

/-! ### put -/

theorem RingBuffer.put_cap (f : Frame) : (rb.put c f).cap = rb.cap := rfl

theorem RingBuffer.put_head (f : Frame) : (rb.put c f).head = rb.inc rb.head := rfl

theorem RingBuffer.put_tail (f : Frame) : (rb.put c f).tail = if rb.full then rb.inc rb.tail else rb.tail := rfl

theorem RingBuffer.Inv.put_full (h : RingBuffer.Inv c rb) (f : Frame) :
    (rb.put c f).full = decide (rb.cap ≤ rb.size + 1) := by
  have := h.head_lt
  have := h.tail_lt
  have hs := h.size_eq
  have hle := h.size_le
  simp only [RingBuffer.occupancy, occ] at hs
  have hput : (rb.put c f).full = fullAfterPut (rb.inc rb.head) (if rb.full then rb.inc rb.tail else rb.tail) := rfl
  rw [hput, Bool.eq_iff_iff]
  simp only [fullAfterPut, beq_iff_eq, decide_eq_true_eq]
  cases hf : rb.full
  · simp only [hf, Bool.false_eq_true, if_false] at hs ⊢
    rw [RingBuffer.inc_eq h.head_lt]
    split at hs <;> split <;> omega
  · have := h.full_meets hf
    simp only [hf, if_true] at hs ⊢
    rw [this]
    simp only [true_iff]
    omega

theorem RingBuffer.Inv.put_size (h : RingBuffer.Inv c rb) (f : Frame) :
    (rb.put c f).size = if rb.full then rb.cap else rb.size + 1 := by
  have := h.head_lt
  have := h.tail_lt
  have hs := h.size_eq
  have hle := h.size_le
  simp only [RingBuffer.occupancy, occ] at hs
  have hput : (rb.put c f).size = occ rb.cap (rb.put c f).head (rb.put c f).tail (rb.put c f).full := rfl
  rw [hput, h.put_full, RingBuffer.put_head, RingBuffer.put_tail]
  unfold occ
  cases hf : rb.full
  · simp only [hf, Bool.false_eq_true, if_false, decide_eq_true_eq] at hs ⊢
    rw [RingBuffer.inc_eq h.head_lt]
    split at hs <;> split <;> (try split) <;> (try split) <;> omega
  · simp only [hf, if_true] at hs ⊢
    rw [if_pos (by simpa using by omega)]

/-- put keeps the invariants. -/
theorem RingBuffer.Inv.put (h : RingBuffer.Inv c rb) (f : Frame) : RingBuffer.Inv c (rb.put c f) := by
  have hsz := h.put_size f
  have hfl := h.put_full f
  have hle := h.size_le
  have hfull := h.full_iff
  have hcap := h.cap_pos
  have hinc : ∀ p, p < rb.cap → rb.inc p < rb.cap := fun p _ => Nat.mod_lt _ h.cap_pos
  have hsle : (rb.put c f).size ≤ rb.cap := by
    rw [hsz]
    split
    · exact Nat.le_refl _
    · have : rb.size ≠ rb.cap := fun e => by simp_all
      omega
  have hhwm : (rb.put c f).hwm = max rb.hwm (rb.put c f).size := rfl
  have hh := h.head_lt
  have ht := h.tail_lt
  refine
    { cap_pos := h.cap_pos, cap_le := h.cap_le, head_lt := hinc _ h.head_lt, tail_lt := ?_, full_meets := ?_,
      size_eq := rfl, hwm_le := ?_, size_le_hwm := ?_, puts_lt := Nat.mod_lt _ (by positivity), gets_lt := h.gets_lt,
      overflows_lt := ?_, slots_wf := Memory.wf_write _ _ h.slots_wf, slots_lt := Memory.write_lt _ h.head_lt h.slots_lt,
      unread_written := ?_ }
  · rw [RingBuffer.put_tail]
    split
    · exact hinc _ h.tail_lt
    · exact h.tail_lt
  · intro e
    have : (rb.put c f).full = fullAfterPut (rb.put c f).head (rb.put c f).tail := rfl
    rw [this] at e
    simpa [fullAfterPut] using e
  · rw [hhwm, RingBuffer.put_cap]
    exact max_le h.hwm_le hsle
  · rw [hhwm]
    exact le_max_right _ _
  · show (if rb.full then cinc c rb.overflows else rb.overflows) < _
    split
    · exact Nat.mod_lt _ (by positivity)
    · exact h.overflows_lt
  · intro j hj
    rw [hsz] at hj
    have hslots : (rb.put c f).slots = Memory.write rb.slots rb.head f := rfl
    rw [hslots, RingBuffer.put_cap, RingBuffer.put_tail]
    by_cases hx : ((if rb.full then rb.inc rb.tail else rb.tail) + j) % rb.cap = rb.head
    · rw [hx]
      simp
    · rw [Memory.read_write_ne _ _ hx]
      cases hf : rb.full
      · simp only [hf, Bool.false_eq_true, if_false] at hj hx ⊢
        apply h.unread_written
        have : j ≠ rb.size := fun e => hx (by rw [e]; exact h.head_eq.symm)
        omega
      · simp only [hf, if_true] at hj hx ⊢
        have hm := h.full_meets hf
        have hs := hfull.1 hf
        have e1 : (rb.inc rb.tail + j) % rb.cap = (rb.tail + (j + 1)) % rb.cap := by
          unfold RingBuffer.inc
          rw [Nat.mod_add_mod]
          congr 1
          omega
        rw [e1] at hx ⊢
        apply h.unread_written
        have : j + 1 ≠ rb.cap := by
          intro e
          apply hx
          rw [e, Nat.add_mod_right, Nat.mod_eq_of_lt ht, hm]
        omega

/-! ### get -/

theorem RingBuffer.Inv.occupancy_eq_zero_iff (h : RingBuffer.Inv c rb) : rb.occupancy = 0 ↔ rb.size = 0 := by
  rw [h.size_eq]

theorem RingBuffer.Inv.get_empty (h : RingBuffer.Inv c rb) (hz : rb.size = 0) :
    rb.get c = rb ∧ rb.getResult = .frame defaultFrame false := by
  have := h.occupancy_eq_zero_iff.2 hz
  simp [RingBuffer.get, RingBuffer.getResult, this]

/-- The frame at the tail of a buffer that is not empty has been written. -/
theorem RingBuffer.Inv.tail_written (h : RingBuffer.Inv c rb) (hp : 0 < rb.size) :
    ∃ f, Memory.read rb.slots rb.tail = some f ∧ rb.frameAt rb.tail = f := by
  have hw := h.unread_written 0 hp
  rw [Nat.add_zero, Nat.mod_eq_of_lt h.tail_lt] at hw
  obtain ⟨f, hf⟩ := Option.isSome_iff_exists.1 hw
  exact ⟨f, hf, by simp [RingBuffer.frameAt, hf]⟩

theorem RingBuffer.Inv.take_size (h : RingBuffer.Inv c rb) (hp : 0 < rb.size) : (rb.take c).size = rb.size - 1 := by
  have := h.head_lt
  have := h.tail_lt
  have hs := h.size_eq
  simp only [RingBuffer.occupancy, occ] at hs
  have htake : (rb.take c).size = occ rb.cap rb.head (rb.inc rb.tail) false := rfl
  rw [htake, RingBuffer.inc_eq h.tail_lt]
  simp only [occ, Bool.false_eq_true, if_false]
  cases hf : rb.full
  · simp only [hf, Bool.false_eq_true, if_false] at hs
    split at hs <;> split <;> split <;> omega
  · have := h.full_meets hf
    simp only [hf, if_true] at hs
    split <;> split <;> omega

theorem RingBuffer.Inv.get_nonempty (h : RingBuffer.Inv c rb) (hp : 0 < rb.size) :
    rb.get c = { rb with full := false, tail := (rb.tail + 1) % rb.cap, size := rb.size - 1,
                         gets := (rb.gets + 1) % 2 ^ c.cntW } ∧
    rb.getResult = .frame (rb.frameAt rb.tail) true := by
  have hz : rb.occupancy ≠ 0 := fun e => by have := h.occupancy_eq_zero_iff.1 e; omega
  constructor
  · have e : rb.take c = { rb with full := false, tail := rb.inc rb.tail, size := (rb.take c).size, gets := cinc c rb.gets } := rfl
    rw [RingBuffer.get, if_neg hz, e, h.take_size hp]
    rfl
  · rw [RingBuffer.getResult, if_neg hz]

/-- get keeps the invariants. -/
theorem RingBuffer.Inv.get (h : RingBuffer.Inv c rb) : RingBuffer.Inv c (rb.get c) := by
  rcases Nat.eq_zero_or_pos rb.size with hz | hp
  · rw [(h.get_empty hz).1]
    exact h
  · have hts := h.take_size hp
    have hz : rb.occupancy ≠ 0 := fun e => by have := h.occupancy_eq_zero_iff.1 e; omega
    rw [RingBuffer.get, if_neg hz]
    have hle := h.size_le_hwm
    refine
      { cap_pos := h.cap_pos, cap_le := h.cap_le, head_lt := h.head_lt, tail_lt := Nat.mod_lt _ h.cap_pos,
        full_meets := fun e => (nomatch e), size_eq := rfl, hwm_le := h.hwm_le, size_le_hwm := ?_, puts_lt := h.puts_lt,
        gets_lt := Nat.mod_lt _ (by positivity), overflows_lt := h.overflows_lt, slots_wf := h.slots_wf,
        slots_lt := h.slots_lt, unread_written := ?_ }
    · rw [hts]
      show _ ≤ rb.hwm
      omega
    · intro j hj
      rw [hts] at hj
      show (Memory.read rb.slots ((rb.inc rb.tail + j) % rb.cap)).isSome = true
      have e1 : (rb.inc rb.tail + j) % rb.cap = (rb.tail + (j + 1)) % rb.cap := by
        unfold RingBuffer.inc
        rw [Nat.mod_add_mod]
        congr 1
        omega
      rw [e1]
      exact h.unread_written _ (by omega)

/-! ### clear, construction and recomputation -/

/-- clear keeps the invariants. -/
theorem RingBuffer.Inv.clear (h : RingBuffer.Inv c rb) : RingBuffer.Inv c rb.clear :=
  { cap_pos := h.cap_pos, cap_le := h.cap_le, head_lt := h.cap_pos, tail_lt := h.cap_pos, full_meets := fun e => (nomatch e)
    size_eq := rfl, hwm_le := h.hwm_le, size_le_hwm := Nat.zero_le _, puts_lt := h.puts_lt, gets_lt := h.gets_lt
    overflows_lt := h.overflows_lt, slots_wf := h.slots_wf, slots_lt := h.slots_lt
    unread_written := fun j hj => absurd hj (Nat.not_lt_zero j) }

/-- A new ring buffer of legal capacity meets the invariants. -/
theorem RingBuffer.construct_inv {cap : Nat} (h1 : 1 ≤ cap) (h2 : cap ≤ c.capMax) :
    RingBuffer.Inv c (RingBuffer.construct cap) :=
  { cap_pos := h1, cap_le := h2, head_lt := h1, tail_lt := h1, full_meets := fun e => (nomatch e), size_eq := rfl
    hwm_le := Nat.zero_le _, size_le_hwm := Nat.le_refl _, puts_lt := Nat.two_pow_pos _, gets_lt := Nat.two_pow_pos _
    overflows_lt := Nat.two_pow_pos _, slots_wf := rfl, slots_lt := fun _ he => (nomatch he)
    unread_written := fun j hj => absurd hj (Nat.not_lt_zero j) }

/-- Recomputing the size cache changes nothing: it always holds the occupancy. -/
theorem RingBuffer.Inv.recompute (h : RingBuffer.Inv c rb) : rb.recompute = rb := by
  unfold RingBuffer.recompute
  rw [← h.size_eq]

/-! ### the frames held -/

theorem RingBuffer.contents_length (rb : RingBuffer) : rb.contents.length = rb.size := by simp [RingBuffer.contents]

theorem RingBuffer.contents_getElem (rb : RingBuffer) {j : Nat} (h : j < rb.contents.length) :
    rb.contents[j] = rb.frameAt ((rb.tail + j) % rb.cap) := by simp [RingBuffer.contents]

theorem RingBuffer.put_frameAt (f : Frame) (i : Nat) :
    (rb.put c f).frameAt i = if i = rb.head then f else rb.frameAt i := by
  have hslots : (rb.put c f).slots = Memory.write rb.slots rb.head f := rfl
  simp only [RingBuffer.frameAt, hslots]
  split
  · subst_vars
    simp
  · rw [Memory.read_write_ne _ _ ‹_›]

/-- put is putting in the bounded queue that discards its oldest frame. -/
theorem RingBuffer.Inv.contents_put (h : RingBuffer.Inv c rb) (f : Frame) :
    (rb.put c f).contents = queuePut rb.cap rb.contents f := by
  have ht := h.tail_lt
  have hle := h.size_le
  have hhd := h.head_eq
  have hcap := h.cap_pos
  unfold queuePut
  rw [RingBuffer.contents_length]
  cases hf : rb.full
  · have hne : rb.size ≠ rb.cap := fun e => by simp [h.full_iff.2 e] at hf
    rw [if_neg hne]
    apply List.ext_getElem
    · simp [RingBuffer.contents_length, h.put_size, hf]
    · intro j h1 h2
      have hj : j < rb.size + 1 := by simpa [RingBuffer.contents_length, h.put_size, hf] using h1
      rw [RingBuffer.contents_getElem, RingBuffer.put_frameAt, RingBuffer.put_cap, RingBuffer.put_tail]
      simp only [hf, Bool.false_eq_true, if_false]
      rw [List.getElem_append]
      simp only [RingBuffer.contents_length]
      rw [hhd, wrap_eq (by omega : rb.tail + j < 2 * rb.cap), wrap_eq (by omega : rb.tail + rb.size < 2 * rb.cap)]
      by_cases hlast : j < rb.size
      · rw [dif_pos hlast, if_neg (by split <;> split <;> omega), RingBuffer.contents_getElem,
          wrap_eq (by omega : rb.tail + j < 2 * rb.cap)]
      · have : j = rb.size := by omega
        subst this
        simp
  · have hs := h.full_iff.1 hf
    have hm := h.full_meets hf
    rw [if_pos hs]
    apply List.ext_getElem
    · simp [RingBuffer.contents_length, h.put_size, hf]
      omega
    · intro j h1 h2
      have hj : j < rb.cap := by simpa [RingBuffer.contents_length, h.put_size, hf] using h1
      rw [RingBuffer.contents_getElem, RingBuffer.put_frameAt, RingBuffer.put_cap, RingBuffer.put_tail]
      simp only [hf, if_true]
      have e1 : (rb.inc rb.tail + j) % rb.cap = (rb.tail + (j + 1)) % rb.cap := by
        unfold RingBuffer.inc
        rw [Nat.mod_add_mod]
        congr 1
        omega
      rw [e1, List.getElem_append]
      simp only [List.length_drop, RingBuffer.contents_length, hs]
      by_cases hlast : j < rb.cap - 1
      · rw [dif_pos hlast, hm, wrap_eq (by omega : rb.tail + (j + 1) < 2 * rb.cap), if_neg (by split <;> omega),
          List.getElem_drop, RingBuffer.contents_getElem, wrap_eq (by omega : rb.tail + (1 + j) < 2 * rb.cap)]
        congr 1
        split <;> split <;> omega
      · have : j + 1 = rb.cap := by omega
        rw [dif_neg hlast, this, Nat.add_mod_right, Nat.mod_eq_of_lt ht, hm]
        simp

/-- get takes the oldest frame. -/
theorem RingBuffer.Inv.contents_get (h : RingBuffer.Inv c rb) (hp : 0 < rb.size) :
    rb.contents = rb.frameAt rb.tail :: (rb.get c).contents := by
  have ht := h.tail_lt
  rw [(h.get_nonempty hp).1]
  apply List.ext_getElem
  · simp [RingBuffer.contents_length]
    omega
  · intro j h1 h2
    rw [RingBuffer.contents_getElem]
    cases j with
    | zero => simp [Nat.mod_eq_of_lt ht]
    | succ j =>
      rw [List.getElem_cons_succ, RingBuffer.contents_getElem]
      simp only [RingBuffer.frameAt]
      rw [Nat.mod_add_mod, show rb.tail + 1 + j = rb.tail + (j + 1) by omega]

theorem RingBuffer.contents_clear (rb : RingBuffer) : rb.clear.contents = [] := rfl

end Sys2Proof.Machine
end

