-- ==== Sys2Proof/Laws/State.lean ====
section
/-! SUPPORT. One lemma per field per named update of State. -/

namespace Sys2Proof.Machine

variable (s : State) (rb : RingBuffer) (r : Option Result)

@[simp] theorem State.withRb_config : (s.withRb rb).config = s.config := rfl
@[simp] theorem State.withRb_deployment : (s.withRb rb).deployment = s.deployment := rfl
@[simp] theorem State.withRb_rb : (s.withRb rb).rb = some rb := rfl
@[simp] theorem State.withRb_rxcap : (s.withRb rb).rxcap = s.rxcap := rfl
@[simp] theorem State.withRb_allocated : (s.withRb rb).allocated = s.allocated := rfl
@[simp] theorem State.withRb_started : (s.withRb rb).started = s.started := rfl
@[simp] theorem State.withRb_debug : (s.withRb rb).debug = s.debug := rfl
@[simp] theorem State.withRb_sent : (s.withRb rb).sent = s.sent := rfl
@[simp] theorem State.withRb_received : (s.withRb rb).received = s.received := rfl
@[simp] theorem State.withRb_producerPort : (s.withRb rb).producerPort = s.producerPort := rfl
@[simp] theorem State.withRb_consumerPort : (s.withRb rb).consumerPort = s.consumerPort := rfl
@[simp] theorem State.withRb_turns : (s.withRb rb).turns = s.turns := rfl
@[simp] theorem State.withRb_answers : (s.withRb rb).answers = s.answers := rfl
@[simp] theorem State.withRb_draws : (s.withRb rb).draws = s.draws := rfl
@[simp] theorem State.withRb_out : (s.withRb rb).out = s.out := rfl

@[simp] theorem State.report_config : (s.report r).config = s.config := rfl
@[simp] theorem State.report_deployment : (s.report r).deployment = s.deployment := rfl
@[simp] theorem State.report_rb : (s.report r).rb = s.rb := rfl
@[simp] theorem State.report_rxcap : (s.report r).rxcap = s.rxcap := rfl
@[simp] theorem State.report_allocated : (s.report r).allocated = s.allocated := rfl
@[simp] theorem State.report_started : (s.report r).started = s.started := rfl
@[simp] theorem State.report_debug : (s.report r).debug = s.debug := rfl
@[simp] theorem State.report_sent : (s.report r).sent = s.sent := rfl
@[simp] theorem State.report_received : (s.report r).received = s.received := rfl
@[simp] theorem State.report_producerPort : (s.report r).producerPort = s.producerPort := rfl
@[simp] theorem State.report_consumerPort : (s.report r).consumerPort = s.consumerPort := rfl
@[simp] theorem State.report_turns : (s.report r).turns = s.turns := rfl
@[simp] theorem State.report_answers : (s.report r).answers = s.answers := rfl
@[simp] theorem State.report_draws : (s.report r).draws = s.draws := rfl
@[simp] theorem State.report_res : (s.report r).out.res = r := rfl
@[simp] theorem State.report_commands : (s.report r).out.commands = [] := rfl
@[simp] theorem State.report_strobe : (s.report r).out.strobe = none := rfl

@[simp] theorem State.afterAnswer_config : s.afterAnswer.config = s.config := by unfold State.afterAnswer; split <;> rfl
@[simp] theorem State.afterAnswer_deployment : s.afterAnswer.deployment = s.deployment := by
  unfold State.afterAnswer; split <;> rfl
@[simp] theorem State.afterAnswer_rb : s.afterAnswer.rb = s.rb := by unfold State.afterAnswer; split <;> rfl
@[simp] theorem State.afterAnswer_rxcap : s.afterAnswer.rxcap = s.rxcap := by unfold State.afterAnswer; split <;> rfl
@[simp] theorem State.afterAnswer_allocated : s.afterAnswer.allocated = s.allocated := by
  unfold State.afterAnswer; split <;> rfl
@[simp] theorem State.afterAnswer_started : s.afterAnswer.started = s.started := by unfold State.afterAnswer; split <;> rfl
@[simp] theorem State.afterAnswer_debug : s.afterAnswer.debug = s.debug := by unfold State.afterAnswer; split <;> rfl
@[simp] theorem State.afterAnswer_sent : s.afterAnswer.sent = s.sent := by unfold State.afterAnswer; split <;> rfl
@[simp] theorem State.afterAnswer_received : s.afterAnswer.received = s.received := by
  unfold State.afterAnswer; split <;> rfl
@[simp] theorem State.afterAnswer_producerPort : s.afterAnswer.producerPort = s.producerPort := by
  unfold State.afterAnswer; split <;> rfl
@[simp] theorem State.afterAnswer_consumerPort : s.afterAnswer.consumerPort = s.consumerPort := by
  unfold State.afterAnswer; split <;> rfl
@[simp] theorem State.afterAnswer_turns : s.afterAnswer.turns = s.turns := by unfold State.afterAnswer; split <;> rfl

/-- Drawing an answer changes the environment's list or the counter of draws, and nothing else. -/
theorem State.afterAnswer_eq :
    s.afterAnswer = { s with answers := s.afterAnswer.answers, draws := s.afterAnswer.draws } := by
  unfold State.afterAnswer; split <;> rfl

/-- Where an answer comes from, and what drawing it leaves: the environment's first, otherwise a free value. -/
theorem State.answer_spec (oracle : Nat → Bool) :
    (∀ a rest, s.answers = a :: rest →
      s.answerFrom oracle = a ∧ s.afterAnswer.answers = rest ∧ s.afterAnswer.draws = s.draws) ∧
    (s.answers = [] → s.afterAnswer.answers = [] ∧ s.afterAnswer.draws = s.draws + 1) := by
  constructor
  · intro a rest h
    simp [State.answerFrom, State.afterAnswer, h]
  · intro h
    simp [State.afterAnswer, h]

end Sys2Proof.Machine
end

