-- ==== Sys2Proof/Laws/Exec.lean ====
section
/-! SUPPORT. What each shared operation can do, said once, and from that everything exec can do: the guards of the meanings,
the ring-buffer operations under them, and the effects. -/

namespace Sys2Proof.Machine

variable {s t : State} {rb : RingBuffer}

@[simp] theorem onRingBuffer_some (k : RingBuffer → Host.Outcome State Fault Refusal) (h : s.rb = some rb) :
    onRingBuffer s k = k rb := by simp [onRingBuffer, h]

@[simp] theorem onRingBuffer_none (k : RingBuffer → Host.Outcome State Fault Refusal) (h : s.rb = none) :
    onRingBuffer s k = .refused .noRingBuffer := by simp [onRingBuffer, h]

/-- An operation on the ring buffer that answers a next state had one. -/
theorem onRingBuffer_next {k : RingBuffer → Host.Outcome State Fault Refusal} (h : onRingBuffer s k = .next t) :
    ∃ rb, s.rb = some rb ∧ k rb = .next t := by
  unfold onRingBuffer at h
  split at h
  · exact ⟨_, ‹_›, h⟩
  · cases h

@[simp] theorem afterBegin_begun (k : Host.Outcome State Fault Refusal) (h : s.allocated = true) : afterBegin s k = k := by
  simp [afterBegin, h]

@[simp] theorem afterBegin_not_begun (k : Host.Outcome State Fault Refusal) (h : s.allocated = false) :
    afterBegin s k = .refused .notBegun := by simp [afterBegin, h]

/-- An operation that needs `begin` and answers a next state had it. -/
theorem afterBegin_next {k : Host.Outcome State Fault Refusal} (h : afterBegin s k = .next t) :
    s.allocated = true ∧ k = .next t := by
  unfold afterBegin at h
  split at h
  · exact ⟨‹_›, h⟩
  · cases h

@[simp] theorem deliver_registered (k : Host.Outcome State Fault Refusal) (h : s.allocated = true) : deliver s k = k := by
  simp [deliver, h]

@[simp] theorem deliver_unregistered (k : Host.Outcome State Fault Refusal) (h : s.allocated = false) :
    deliver s k = .next (s.report none) := by simp [deliver, h]

/-- A delivered event is handled, or, with no callback registered, dropped. -/
theorem deliver_next {k : Host.Outcome State Fault Refusal} (h : deliver s k = .next t) :
    (s.allocated = true ∧ k = .next t) ∨ (s.allocated = false ∧ t = s.report none) := by
  unfold deliver at h
  split at h
  · exact .inl ⟨‹_›, h⟩
  · exact .inr ⟨by simpa using ‹¬s.allocated = true›, by cases h; rfl⟩

/-- An ignored event changes nothing, registered or not. -/
@[simp] theorem ignoreEvent_eq (s : State) : ignoreEvent s = .next (s.report none) := by
  cases h : s.allocated <;> simp [ignoreEvent, deliver, h]

@[simp] theorem answerQuery_some (r : RingBuffer → Result) (h : s.rb = some rb) :
    answerQuery s r = .next (s.report (some (r rb))) := by simp [answerQuery, onRingBuffer, h]

/-- A query that answers a next state changes nothing but the result port. -/
theorem answerQuery_next {r : RingBuffer → Result} (h : answerQuery s r = .next t) :
    ∃ rb, s.rb = some rb ∧ t = s.report (some (r rb)) := by
  obtain ⟨rb, hrb, h⟩ := onRingBuffer_next h
  exact ⟨rb, hrb, by cases h; rfl⟩

end Sys2Proof.Machine

namespace Sys2Proof.Machine

/-- What an operation can do to the ring buffer it finds (20_memory.md R71: only put and get reach the slots). -/
inductive RingBuffer.Change (c : Config) (i : Instr) (rb : RingBuffer) : RingBuffer → Prop where
  | put (f : Frame) (h : i = .rbPut f ∨ ∃ n, i = .evRxComplete n ∧ f = fromNative n) : Change c i rb (rb.put c f)
  | get (h : i = .rbGet ∨ i = .faGetNextMessage) : Change c i rb (rb.get c)
  | clear (h : i = .rbClear) : Change c i rb rb.clear
  | recompute (h : i = .rbSize ∨ i = .rbFreeSlots) : Change c i rb rb.recompute

/-- Everything an operation can do where it answers a next state: an answer with nothing changed, a change of the ring buffer
(and of `received`, for FA.GETNEXTMESSAGE), a start, a send, or a configuration register. -/
inductive Effect (i : Instr) (s : State) : State → Prop where
  | report (r : Option Result)
      (h : r = none ∨ (∃ b, r = some (.bit b)) ∨ (∃ rb, s.rb = some rb ∧ r = some (.size rb.hwm)) ∨
        (∃ rb, s.rb = some rb ∧ (r = some (.count rb.puts) ∨ r = some (.count rb.gets) ∨ r = some (.count rb.overflows))) ∨
        r = some (.count s.sent) ∨ r = some (.count s.received)) :
      Effect i s (s.report r)
  | ringBuffer (rb rb' : RingBuffer) (r : Option Result) (hrb : s.rb = some rb) (h : RingBuffer.Change s.config i rb rb')
      (hr : r = none ∨ (∃ b, r = some (.bit b)) ∨ r = some rb.getResult ∨ r = some (.size rb.occupancy) ∨
        r = some (.size (rb.cap - rb.occupancy)))
      (hi : i ≠ .faGetNextMessage) : Effect i s ((s.withRb rb').report r)
  | receive (rb : RingBuffer) (hrb : s.rb = some rb) (hi : i = .faGetNextMessage) :
      Effect i s ({ s.withRb (rb.get s.config) with received := cinc s.config s.received }.report (some rb.getResult))
  | begin (hi : ∃ p b, i = .faBegin p b) (ha : s.allocated = false) (h1 : 1 ≤ s.rxcap) (h2 : s.rxcap ≤ s.config.capMax) :
      Effect i s
        { s.afterAnswer with
          rb := some (RingBuffer.construct s.rxcap)
          allocated := true
          started := s.answerFrom Config.startAnswer
          out := { res := some (.bit (s.answerFrom Config.startAnswer))
                   commands := [.configureBitrate Config.bitrate, .registerCallback, .start], strobe := none } }
  | send (g : Frame) (counted : Bool) (strobe : Option (Frame × Bool))
      (hi : (∃ f r e v p, i = .faSendMessage f r e v p) ∨ ∃ f, i = .faSendMessageNoUpdate f) :
      Effect i s
        { s.afterAnswer with
          sent := if counted then cinc s.config s.sent else s.sent
          out := { res := some (.bit (s.answerFrom Config.submitAnswer)), commands := [.submit (toNative g)],
                   strobe := strobe } }
  | setCapacity (n : Nat) (hi : ∃ tx, i = .faSetNumBuffers n tx) (ha : s.allocated = false) (h1 : 1 ≤ n)
      (h2 : n ≤ s.config.capMax) : Effect i s ({ s with rxcap := n }.report none)
  | setDebug (b : Bool) (hi : i = .faSetDebug b) : Effect i s ({ s with debug := b }.report none)

/-- The inversion lemma of exec: an operation that answers a next state has one of these effects. -/
theorem exec_effect {i : Instr} {s t : State} (h : exec i s = .next t) : Effect i s t := by
  cases i with
  | rbPut f =>
    obtain ⟨rb, hrb, h⟩ := onRingBuffer_next h
    cases h
    exact .ringBuffer rb _ _ hrb (.put f (.inl rfl)) (.inr (.inl ⟨_, rfl⟩)) (by simp)
  | rbGet =>
    obtain ⟨rb, hrb, h⟩ := onRingBuffer_next h
    cases h
    exact .ringBuffer rb _ _ hrb (.get (.inl rfl)) (by simp) (by simp)
  | rbClear =>
    obtain ⟨rb, hrb, h⟩ := onRingBuffer_next h
    cases h
    exact .ringBuffer rb _ _ hrb (.clear rfl) (by simp) (by simp)
  | rbSize =>
    obtain ⟨rb, hrb, h⟩ := onRingBuffer_next h
    cases h
    exact .ringBuffer rb _ _ hrb (.recompute (.inl rfl)) (by simp) (by simp)
  | rbFreeSlots =>
    obtain ⟨rb, hrb, h⟩ := onRingBuffer_next h
    cases h
    exact .ringBuffer rb _ _ hrb (.recompute (.inr rfl)) (by simp) (by simp)
  | rbAvailable | rbFull | rbEmpty =>
    obtain ⟨rb, hrb, rfl⟩ := answerQuery_next h
    exact .report _ (.inr (.inl ⟨_, rfl⟩))
  | rbPuts | rbGets | rbOverflows =>
    obtain ⟨rb, hrb, rfl⟩ := answerQuery_next h
    exact .report _ (.inr (.inr (.inr (.inl ⟨rb, hrb, by simp⟩))))
  | rbHwm =>
    obtain ⟨rb, hrb, rfl⟩ := answerQuery_next h
    exact .report _ (.inr (.inr (.inl ⟨rb, hrb, rfl⟩)))
  | faBegin p b =>
    simp only [exec, execFaBegin] at h
    split at h
    · cases h
    · split at h
      · cases h
      · cases h
        exact .begin ⟨p, b, rfl⟩ (by simpa using ‹¬s.allocated = true›) (by omega) (by omega)
  | faAvailable =>
    obtain ⟨-, h⟩ := afterBegin_next h
    obtain ⟨rb, hrb, rfl⟩ := answerQuery_next h
    exact .report _ (.inr (.inl ⟨_, rfl⟩))
  | faGetNextMessage =>
    obtain ⟨-, h⟩ := afterBegin_next h
    obtain ⟨rb, hrb, h⟩ := onRingBuffer_next h
    cases h
    exact .receive rb hrb rfl
  | faSendMessage f r e v p =>
    obtain ⟨-, h⟩ := afterBegin_next h
    cases h
    exact .send _ _ _ (.inl ⟨f, r, e, v, p, rfl⟩)
  | faSendMessageNoUpdate f =>
    obtain ⟨-, h⟩ := afterBegin_next h
    cases h
    have := Effect.send (i := .faSendMessageNoUpdate f) (s := s) f false none (.inr ⟨f, rfl⟩)
    simpa using this
  | faSetNumBuffers rx tx =>
    simp only [exec, execFaSetNumBuffers] at h
    split at h
    · cases h
      exact .report _ (.inl rfl)
    · split at h
      · cases h
      · cases h
        exact .setCapacity rx ⟨tx, rfl⟩ (by simpa using ‹¬s.allocated = true›) (by omega) (by omega)
  | faSetDebug b =>
    cases h
    exact .setDebug b rfl
  | faReset | faPrintStatus =>
    cases h
    exact .report _ (.inl rfl)
  | faSent | faReceived =>
    cases h
    exact .report _ (by simp)
  | faPuts | faGets | faOverflows =>
    obtain ⟨-, h⟩ := afterBegin_next h
    obtain ⟨rb, hrb, rfl⟩ := answerQuery_next h
    exact .report _ (.inr (.inr (.inr (.inl ⟨rb, hrb, by simp⟩))))
  | faHwm =>
    obtain ⟨-, h⟩ := afterBegin_next h
    obtain ⟨rb, hrb, rfl⟩ := answerQuery_next h
    exact .report _ (.inr (.inr (.inl ⟨rb, hrb, rfl⟩)))
  | evRxComplete n =>
    rcases deliver_next h with ⟨-, h⟩ | ⟨-, rfl⟩
    · obtain ⟨rb, hrb, h⟩ := onRingBuffer_next h
      cases h
      exact .ringBuffer rb _ _ hrb (.put _ (.inr ⟨n, rfl, rfl⟩)) (.inl rfl) (by simp)
    · exact .report _ (.inl rfl)
  | evTxComplete | evErrWarning | evErrPassive | evErrBusOff | evBusRecovery | evMailboxOverrun | evBusLock | evChannelError
  | evTxAbort | evGlobalError | evFifoEmpty =>
    have h : ignoreEvent s = .next t := h
    rw [ignoreEvent_eq] at h
    cases h
    exact .report _ (.inl rfl)

end Sys2Proof.Machine

/-! One lemma per operation on the ring buffer: what it answers where there is one. -/

namespace Sys2Proof.Machine

variable {s : State} {rb : RingBuffer}

theorem exec_rbPut (f : Frame) (h : s.rb = some rb) :
    exec (.rbPut f) s = .next ((s.withRb (rb.put s.config f)).report (some (.bit rb.full))) := onRingBuffer_some _ h

theorem exec_rbGet (h : s.rb = some rb) :
    exec .rbGet s = .next ((s.withRb (rb.get s.config)).report (some rb.getResult)) := onRingBuffer_some _ h

theorem exec_rbClear (h : s.rb = some rb) : exec .rbClear s = .next ((s.withRb rb.clear).report none) :=
  onRingBuffer_some _ h

theorem exec_rbSize (h : s.rb = some rb) :
    exec .rbSize s = .next ((s.withRb rb.recompute).report (some (.size rb.occupancy))) := onRingBuffer_some _ h

theorem exec_rbFreeSlots (h : s.rb = some rb) :
    exec .rbFreeSlots s = .next ((s.withRb rb.recompute).report (some (.size (rb.cap - rb.occupancy)))) :=
  onRingBuffer_some _ h

theorem exec_rbAvailable (h : s.rb = some rb) : exec .rbAvailable s = .next (s.report (some (.bit rb.isAvailable))) :=
  answerQuery_some _ h

theorem exec_rbFull (h : s.rb = some rb) : exec .rbFull s = .next (s.report (some (.bit rb.full))) := answerQuery_some _ h

theorem exec_rbEmpty (h : s.rb = some rb) : exec .rbEmpty s = .next (s.report (some (.bit rb.isEmpty))) :=
  answerQuery_some _ h

theorem exec_rbPuts (h : s.rb = some rb) : exec .rbPuts s = .next (s.report (some (.count rb.puts))) := answerQuery_some _ h

theorem exec_rbGets (h : s.rb = some rb) : exec .rbGets s = .next (s.report (some (.count rb.gets))) := answerQuery_some _ h

theorem exec_rbOverflows (h : s.rb = some rb) : exec .rbOverflows s = .next (s.report (some (.count rb.overflows))) :=
  answerQuery_some _ h

theorem exec_rbHwm (h : s.rb = some rb) : exec .rbHwm s = .next (s.report (some (.size rb.hwm))) := answerQuery_some _ h

theorem exec_evRxComplete (n : NativeFrame) (ha : s.allocated = true) (h : s.rb = some rb) :
    exec (.evRxComplete n) s = .next ((s.withRb (rb.put s.config (fromNative n))).report none) :=
  (deliver_registered _ ha).trans (onRingBuffer_some _ h)

theorem exec_faGetNextMessage (ha : s.allocated = true) (h : s.rb = some rb) :
    exec .faGetNextMessage s =
      .next ({ s.withRb (rb.get s.config) with received := cinc s.config s.received }.report (some rb.getResult)) :=
  (afterBegin_begun _ ha).trans (onRingBuffer_some _ h)

end Sys2Proof.Machine
end

