-- ==== Sys2Proof/Laws/Step.lean ====
section
/-! SUPPORT. What taking a presentation can do, and what a step can do, said once. -/

namespace Sys2Proof.Machine

/-- Taking a presentation changes the ports, the order of turns and the counter of draws, and nothing else. -/
theorem takeNext_frame {s s' : State} {a : Agent} {w : OpWord} (h : takeNext s = some (a, w, s')) :
    ∃ ps qs ts n, s' = { s with producerPort := ps, consumerPort := qs, turns := ts, draws := n } := by
  unfold takeNext at h
  repeat' split at h
  all_goals cases h
  all_goals exact ⟨_, _, _, _, rfl⟩

/-- A step that answers a next state is idle, or runs the operation its agent's port accepted. -/
theorem step_cases {s t : State} (h : step s = .next t) :
    t = s.report none ∨
    ∃ a w s' i, takeNext s = some (a, w, s') ∧ decode s.config w = .ok i ∧
      accepts (portOf s.deployment a) w.op = true ∧ exec i s' = .next t := by
  unfold step at h
  split at h
  · cases h
    exact .inl rfl
  · split at h
    · cases h
    · split at h
      · exact .inr ⟨_, _, _, _, ‹_›, ‹_›, ‹_›, h⟩
      · cases h

end Sys2Proof.Machine
end

