-- ==== Sys2Proof/Laws/Change.lean ====
section
/-! SUPPORT. What any operation, and any step, can do to the ring buffer and to the counters: the inversion lemmas, put together
once. -/

namespace Sys2Proof.Machine

variable {c : Config} {i : Instr} {rb rb' : RingBuffer} {s s' t : State} {a : Agent} {w : OpWord}

/-- get changes the flag, the tail, the cache and its counter only. -/
theorem RingBuffer.get_frame (c : Config) (rb : RingBuffer) :
    (rb.get c).cap = rb.cap ∧ (rb.get c).head = rb.head ∧ (rb.get c).puts = rb.puts ∧ (rb.get c).overflows = rb.overflows ∧
      (rb.get c).hwm = rb.hwm ∧ (rb.get c).slots = rb.slots := by
  unfold RingBuffer.get
  split <;> simp [RingBuffer.take]

/-- Every change keeps the invariants. -/
theorem RingBuffer.Change.inv (hc : RingBuffer.Change c i rb rb') (h : RingBuffer.Inv c rb) : RingBuffer.Inv c rb' := by
  cases hc with
  | put f => exact h.put f
  | get => exact h.get
  | clear => exact h.clear
  | recompute => rw [h.recompute]; exact h

/-- No change alters the capacity (10_state.md R34). -/
theorem RingBuffer.Change.cap_eq (hc : RingBuffer.Change c i rb rb') : rb'.cap = rb.cap := by
  cases hc with
  | put f => rfl
  | get => exact (rb.get_frame c).1
  | clear => rfl
  | recompute => rfl

/-- A change leaves each counter or increments it, and does not lower the high-water mark. -/
theorem RingBuffer.Change.counters (hc : RingBuffer.Change c i rb rb') :
    (rb'.puts = rb.puts ∨ rb'.puts = cinc c rb.puts) ∧ (rb'.gets = rb.gets ∨ rb'.gets = cinc c rb.gets) ∧
      (rb'.overflows = rb.overflows ∨ rb'.overflows = cinc c rb.overflows) ∧ rb.hwm ≤ rb'.hwm := by
  cases hc with
  | put f =>
    refine ⟨.inr rfl, .inl rfl, ?_, Nat.le_max_left _ _⟩
    cases hf : rb.full <;> simp [RingBuffer.put, hf]
  | get =>
    unfold RingBuffer.get
    split <;> simp [RingBuffer.take]
  | clear => simp [RingBuffer.clear]
  | recompute => simp [RingBuffer.recompute]

/-- The registers of the block, which taking a presentation leaves as they are. -/
theorem takeNext_registers (h : takeNext s = some (a, w, s')) :
    s'.config = s.config ∧ s'.deployment = s.deployment ∧ s'.rb = s.rb ∧ s'.rxcap = s.rxcap ∧ s'.allocated = s.allocated ∧
      s'.started = s.started ∧ s'.debug = s.debug ∧ s'.sent = s.sent ∧ s'.received = s.received ∧ s'.out = s.out := by
  obtain ⟨_, _, _, _, rfl⟩ := takeNext_frame h
  simp

/-- FA.BEGIN is accepted in the composed block only. -/
theorem accepts_begin {d : Deployment} {p : Bool} {b : Nat}
    (h : accepts (portOf d a) (opcodeOf (.faBegin p b)) = true) : d = .composed := by
  cases d
  · rfl
  · cases a <;> simp [portOf, accepts, opcodeOf, unitOf] at h

/-- Everything a step can do to what outlives it: the launch parameters stay, the lifecycle flags are latched, the adapter's
counters are incremented at most, and the ring buffer changes by one of the changes. -/
theorem step_frame (hI : s.Inv) (h : step s = .next t) :
    t.config = s.config ∧ t.deployment = s.deployment ∧
      (t.sent = s.sent ∨ t.sent = cinc s.config s.sent) ∧
      (t.received = s.received ∨ t.received = cinc s.config s.received) ∧
      (s.allocated = true → t.allocated = true ∧ t.rxcap = s.rxcap ∧ t.started = s.started) ∧
      (∀ rb, s.rb = some rb → ∃ rb', t.rb = some rb' ∧ (rb' = rb ∨ ∃ i, RingBuffer.Change s.config i rb rb')) := by
  rcases step_cases h with rfl | ⟨a, w, s', i, ht, hd, ha, he⟩
  · exact ⟨rfl, rfl, .inl rfl, .inl rfl, fun h => ⟨h, rfl, rfl⟩, fun rb h => ⟨rb, h, .inl rfl⟩⟩
  · obtain ⟨t1, t2, t3, t4, t5, t6, -, t8, t9, -⟩ := takeNext_registers ht
    cases exec_effect he with
    | report r hr => simp_all
    | ringBuffer rb rb' r hrb hc hr hi =>
      rw [t3] at hrb
      rw [t1] at hc
      refine ⟨t1, t2, .inl t8, .inl t9, fun h => ⟨t5.trans h, t4, t6⟩, fun r hr2 => ?_⟩
      rw [hrb] at hr2
      cases hr2
      exact ⟨rb', rfl, .inr ⟨_, hc⟩⟩
    | receive rb hrb hi =>
      rw [t3] at hrb
      refine ⟨t1, t2, .inl t8, .inr (by simp [t9, t1]), fun h => ⟨t5.trans h, t4, t6⟩, fun r hr2 => ?_⟩
      rw [hrb] at hr2
      cases hr2
      exact ⟨_, rfl, .inr ⟨i, by rw [t1]; exact .get (.inr hi)⟩⟩
    | begin hi hal h1 h2 =>
      obtain ⟨p, b, rfl⟩ := hi
      have hc := hI.composed_allocated (accepts_begin (a := a) (p := p) (b := b) (by rw [decode_opcode hd]; exact ha))
      have hn : s.rb = none := by
        rw [t5] at hal
        rw [hal] at hc
        simpa using hc.symm
      simp_all
    | send g k st hi =>
      refine ⟨?_, ?_, ?_, ?_, ?_, ?_⟩ <;> simp_all
      cases k <;> simp
    | setCapacity n hi hal h1 h2 => simp_all
    | setDebug b hi => simp_all

end Sys2Proof.Machine
end

