-- ==== Sys2Proof/Laws/PerInstr.lean ====
section
/-! SUPPORT. Per instruction: the operand word of a well-formed operation is as wide as its format says. -/

namespace Sys2Proof.Laws.OperandFits

/-- The operand word of a well-formed operation has no bit above those its format defines (30_encoding.md R102). -/
def Statement (i : Instr) : Prop :=
  ∀ c : Config, i.wellFormed c = true → operandWord c i < 2 ^ operandWidth c i

theorem rbPut (frame : Frame) : Statement (.rbPut frame) :=
  fun _ _ => packFrame_lt frame

theorem rbGet : Statement .rbGet := fun _ _ => Nat.one_pos
theorem rbClear : Statement .rbClear := fun _ _ => Nat.one_pos
theorem rbAvailable : Statement .rbAvailable := fun _ _ => Nat.one_pos
theorem rbSize : Statement .rbSize := fun _ _ => Nat.one_pos
theorem rbFreeSlots : Statement .rbFreeSlots := fun _ _ => Nat.one_pos
theorem rbFull : Statement .rbFull := fun _ _ => Nat.one_pos
theorem rbEmpty : Statement .rbEmpty := fun _ _ => Nat.one_pos
theorem rbPuts : Statement .rbPuts := fun _ _ => Nat.one_pos
theorem rbGets : Statement .rbGets := fun _ _ => Nat.one_pos
theorem rbOverflows : Statement .rbOverflows := fun _ _ => Nat.one_pos
theorem rbHwm : Statement .rbHwm := fun _ _ => Nat.one_pos
theorem faBegin (pollingMode : Bool) (busInterface : Nat) : Statement (.faBegin pollingMode busInterface) := by
  intro c h
  simp only [Instr.wellFormed, decide_eq_true_eq] at h
  have := Bool.toNat_le pollingMode
  simp only [operandWord, operandWidth, Nat.pow_add]
  omega

theorem faAvailable : Statement .faAvailable := fun _ _ => Nat.one_pos
theorem faGetNextMessage : Statement .faGetNextMessage := fun _ _ => Nat.one_pos
theorem faSendMessage (frame : Frame) (remoteFlag extendedFlag prioValid : Bool) (priority : Nat) : Statement (.faSendMessage frame remoteFlag extendedFlag prioValid priority) := by
  intro c h
  simp only [Instr.wellFormed, decide_eq_true_eq] at h
  have := packFrame_lt frame
  have := Bool.toNat_le remoteFlag
  have := Bool.toNat_le extendedFlag
  have := Bool.toNat_le prioValid
  simp only [operandWord, operandWidth, Nat.pow_add]
  omega

theorem faSendMessageNoUpdate (frame : Frame) : Statement (.faSendMessageNoUpdate frame) :=
  fun _ _ => packFrame_lt frame

theorem faSetNumBuffers (rxCount txCount : Nat) : Statement (.faSetNumBuffers rxCount txCount) := by
  intro c h
  simp only [Instr.wellFormed, Bool.and_eq_true, decide_eq_true_eq] at h
  simp only [operandWord, operandWidth, Nat.two_mul, Nat.pow_add]
  nlinarith [h.1, h.2]

theorem faSetDebug (enabled : Bool) : Statement (.faSetDebug enabled) := by
  intro c _
  cases enabled <;> simp [operandWord, operandWidth]

theorem faReset : Statement .faReset := fun _ _ => Nat.one_pos
theorem faPrintStatus : Statement .faPrintStatus := fun _ _ => Nat.one_pos
theorem faSent : Statement .faSent := fun _ _ => Nat.one_pos
theorem faReceived : Statement .faReceived := fun _ _ => Nat.one_pos
theorem faPuts : Statement .faPuts := fun _ _ => Nat.one_pos
theorem faGets : Statement .faGets := fun _ _ => Nat.one_pos
theorem faOverflows : Statement .faOverflows := fun _ _ => Nat.one_pos
theorem faHwm : Statement .faHwm := fun _ _ => Nat.one_pos
theorem evRxComplete (native : NativeFrame) : Statement (.evRxComplete native) :=
  fun _ _ => packNative_lt native

theorem evTxComplete : Statement .evTxComplete := fun _ _ => Nat.one_pos
theorem evErrWarning : Statement .evErrWarning := fun _ _ => Nat.one_pos
theorem evErrPassive : Statement .evErrPassive := fun _ _ => Nat.one_pos
theorem evErrBusOff : Statement .evErrBusOff := fun _ _ => Nat.one_pos
theorem evBusRecovery : Statement .evBusRecovery := fun _ _ => Nat.one_pos
theorem evMailboxOverrun : Statement .evMailboxOverrun := fun _ _ => Nat.one_pos
theorem evBusLock : Statement .evBusLock := fun _ _ => Nat.one_pos
theorem evChannelError : Statement .evChannelError := fun _ _ => Nat.one_pos
theorem evTxAbort : Statement .evTxAbort := fun _ _ => Nat.one_pos
theorem evGlobalError : Statement .evGlobalError := fun _ _ => Nat.one_pos
theorem evFifoEmpty : Statement .evFifoEmpty := fun _ _ => Nat.one_pos

end Sys2Proof.Laws.OperandFits
end

