-- ==== Sys2Proof/Tests/Slice0.lean ====
section
/-! SUPPORT. The model's own tests: ill-formed terms refused, words of the spec decoded, one step of the spec's vectors, and for every
statement with hypotheses a state and operands that meet them together. Expected values are those of 95_test_vectors.md. -/

namespace Sys2Proof.Tests

open Sys2Proof.Machine

/-! ### Helpers -/

/-- The test instance T (95_test_vectors.md section 0). -/
abbrev cfg : Config := Config.instanceT

/-- A Frame from its packing in 95_test_vectors.md. -/
def frameOf (w : Nat) : Frame := (unpackFrame w).getD defaultFrame

/-- A native frame from its packing in 95_test_vectors.md. -/
def nativeOf (w : Nat) : NativeFrame :=
  (unpackNative w).getD { id := 0, dlc := 0, data := #v[0, 0, 0, 0, 0, 0, 0, 0], remote := false, extended := false }

def wA : Nat := 0x00000101100000000000000A0
def wB : Nat := 0x000001022000000000000B1B0
def wC : Nat := 0x0000010330000000000C2C1C0
def wD : Nat := 0x2000010400000000000000000
def wE : Nat := 0x5ABCDE058E7E6E5E4E3E2E1E0
def wX : Nat := 0x000005A51000000000000EE0D
def n1 : Nat := 0x0000012320000000000CCBBAA
def n3 : Nat := 0x7FFFFFFF00000000000000000

/-- Four slots that hold the frames with these packings. -/
def four (a b c d : Nat) : Memory := [(0, frameOf a), (1, frameOf b), (2, frameOf c), (3, frameOf d)]

/-- State E1 of 41_ring_buffer_queries.md: `CAP = 4`, three unread frames that wrap. -/
def ringE1 : RingBuffer :=
  { cap := 4, head := 1, tail := 2, full := false, size := 3, puts := 5, gets := 1, overflows := 1, hwm := 4,
    slots := four wE wB wC wD }

/-- Program P1 after step 6: full after an overflow. -/
def ringFull : RingBuffer :=
  { cap := 4, head := 1, tail := 1, full := true, size := 4, puts := 5, gets := 0, overflows := 1, hwm := 4,
    slots := four wE wB wC wD }

/-- Program P1 at its end: drained. -/
def ringEmpty : RingBuffer :=
  { cap := 4, head := 1, tail := 1, full := false, size := 0, puts := 5, gets := 4, overflows := 1, hwm := 4,
    slots := four wE wB wC wD }

/-- Program P4 after step 1: capacity one, full. -/
def ringOne : RingBuffer :=
  { cap := 1, head := 0, tail := 0, full := true, size := 1, puts := 1, gets := 0, overflows := 0, hwm := 1,
    slots := [(0, frameOf wA)] }

/-- RB alone with this ring buffer. -/
def alone (rb : RingBuffer) : State := { State.launchAlone cfg rb.cap with rb := some rb }

/-- The composed block after a successful begin, with this ring buffer and these answers of the peripheral. -/
def begun (rb : RingBuffer) (answers : List Bool) : State :=
  { State.launch cfg with rb := some rb, rxcap := rb.cap, allocated := true, started := true, answers := answers }

/-- What a step shows in the next state; none where there is no next state. -/
def seen {α : Type} (o : Host.Outcome State Fault Refusal) (f : State → α) : Option α :=
  match o with
  | .next t => some (f t)
  | .fault _ => none
  | .refused _ => none

/-- Why an operation is refused; none where it is not. -/
def refusal (o : Host.Outcome State Fault Refusal) : Option Refusal :=
  match o with
  | .next _ => none
  | .fault _ => none
  | .refused r => some r

/-- The registers in the order the spec's vectors write them: head, tail, full, size, puts, gets, overflows, hwm. -/
def regs (s : State) : Option (List Nat) :=
  s.rb.map fun rb => [rb.head, rb.tail, rb.full.toNat, rb.size, rb.puts, rb.gets, rb.overflows, rb.hwm]

/-- The result word of the last step. -/
def resWord (s : State) : Option Nat := s.out.res.map Result.word

/-- What the decoder reads, where it reads an operation. -/
def decoded (op : Opcode) (arg : Nat) : Option Instr :=
  match decode cfg { op := op, arg := arg } with
  | .ok i => some i
  | .error _ => none

/-- Why the decoder refuses a word. -/
def decodeRefusal (op : Opcode) (arg : Nat) : Option DecodeError :=
  match decode cfg { op := op, arg := arg } with
  | .ok _ => none
  | .error e => some e

/-! ### WellFormed refuses an ill-formed term, for each check -/

theorem test_wellFormed_busInterface : (Instr.faBegin false 256).wellFormed cfg = false ∧ (Instr.faBegin false 255).wellFormed cfg = true := by
  decide

theorem test_wellFormed_priority :
    (Instr.faSendMessage defaultFrame false false true 16).wellFormed cfg = false ∧
    (Instr.faSendMessage defaultFrame false false true 15).wellFormed cfg = true := by decide

theorem test_wellFormed_rxCount : (Instr.faSetNumBuffers 256 0).wellFormed cfg = false ∧ (Instr.faSetNumBuffers 255 0).wellFormed cfg = true := by
  decide

theorem test_wellFormed_txCount : (Instr.faSetNumBuffers 0 256).wellFormed cfg = false ∧ (Instr.faSetNumBuffers 0 255).wellFormed cfg = true := by
  decide

/-! ### Words of 95_test_vectors.md, and of the opcode maps R110 to R112, decode to what they stand for -/

/-- Frames A and E of section 0, written out field by field. -/
theorem test_decode_rbPut :
    decoded 0x00 0x00000101100000000000000A0 =
      some (.rbPut { id := 0x101, len := 1, data := #v[0xA0, 0, 0, 0, 0, 0, 0, 0], rtr := false, ext := false }) ∧
    decoded 0x00 0x5ABCDE058E7E6E5E4E3E2E1E0 =
      some (.rbPut
        { id := 0x1ABCDE05, len := 8, data := #v[0xE0, 0xE1, 0xE2, 0xE3, 0xE4, 0xE5, 0xE6, 0xE7], rtr := false, ext := true }) := by
  decide

theorem test_decode_rb_without_operand :
    decoded 0x01 0 = some .rbGet ∧ decoded 0x02 0 = some .rbClear ∧ decoded 0x03 0 = some .rbAvailable ∧
    decoded 0x04 0 = some .rbSize ∧ decoded 0x05 0 = some .rbFreeSlots ∧ decoded 0x06 0 = some .rbFull ∧
    decoded 0x07 0 = some .rbEmpty ∧ decoded 0x08 0 = some .rbPuts ∧ decoded 0x09 0 = some .rbGets ∧
    decoded 0x0A 0 = some .rbOverflows ∧ decoded 0x0B 0 = some .rbHwm := by decide

/-- V-A2. -/
theorem test_decode_faBegin : decoded 0x40 0x055 = some (.faBegin true 0x2A) := by decide

/-- V-T8 and S-P7. -/
theorem test_decode_faSendMessage :
    decoded 0x43 0x0A600007A530000000000020190 =
      some (.faSendMessage { id := 0x7A5, len := 3, data := #v[0x90, 0x01, 0x02, 0, 0, 0, 0, 0], rtr := true, ext := true }
        false false true 2) ∧
    decoded 0x43 0x3D800000051000000000000000D =
      some (.faSendMessage { id := 0x005, len := 1, data := #v[0x0D, 0, 0, 0, 0, 0, 0, 0], rtr := false, ext := false }
        true true false 0xF) := by decide

/-- Program P3 step 12. -/
theorem test_decode_faSendMessageNoUpdate :
    decoded 0x44 0x000005A51000000000000EE0D =
      some (.faSendMessageNoUpdate
        { id := 0x5A5, len := 1, data := #v[0x0D, 0xEE, 0, 0, 0, 0, 0, 0], rtr := false, ext := false }) := by decide

/-- V-A5 and V-A6. -/
theorem test_decode_fa_configuration :
    decoded 0x45 0x0304 = some (.faSetNumBuffers 4 3) ∧ decoded 0x46 1 = some (.faSetDebug true) ∧
    decoded 0x46 0 = some (.faSetDebug false) := by decide

theorem test_decode_fa_without_operand :
    decoded 0x41 0 = some .faAvailable ∧ decoded 0x42 0 = some .faGetNextMessage ∧ decoded 0x47 0 = some .faReset ∧
    decoded 0x48 0 = some .faPrintStatus ∧ decoded 0x49 0 = some .faSent ∧ decoded 0x4A 0 = some .faReceived ∧
    decoded 0x4B 0 = some .faPuts ∧ decoded 0x4C 0 = some .faGets ∧ decoded 0x4D 0 = some .faOverflows ∧
    decoded 0x4E 0 = some .faHwm := by decide

/-- Native frames n1 and n3 of section 0. -/
theorem test_decode_evRxComplete :
    decoded 0x80 0x0000012320000000000CCBBAA =
      some (.evRxComplete
        { id := 0x123, dlc := 2, data := #v[0xAA, 0xBB, 0xCC, 0, 0, 0, 0, 0], remote := false, extended := false }) ∧
    decoded 0x80 0x7FFFFFFF00000000000000000 =
      some (.evRxComplete
        { id := 0x1FFFFFFF, dlc := 0, data := #v[0, 0, 0, 0, 0, 0, 0, 0], remote := true, extended := true }) := by decide

theorem test_decode_ev_without_operand :
    decoded 0x81 0 = some .evTxComplete ∧ decoded 0x82 0 = some .evErrWarning ∧ decoded 0x83 0 = some .evErrPassive ∧
    decoded 0x84 0 = some .evErrBusOff ∧ decoded 0x85 0 = some .evBusRecovery ∧ decoded 0x86 0 = some .evMailboxOverrun ∧
    decoded 0x87 0 = some .evBusLock ∧ decoded 0x88 0 = some .evChannelError ∧ decoded 0x89 0 = some .evTxAbort ∧
    decoded 0x8A 0 = some .evGlobalError ∧ decoded 0x8B 0 = some .evFifoEmpty := by decide

/-- V-R1. -/
theorem test_decode_reserved_opcodes :
    decodeRefusal 0x0C 0 = some .reservedOpcode ∧ decodeRefusal 0x3F 0 = some .reservedOpcode ∧
    decodeRefusal 0x4F 0 = some .reservedOpcode ∧ decodeRefusal 0x7F 0 = some .reservedOpcode ∧
    decodeRefusal 0x8C 0 = some .reservedOpcode ∧ decodeRefusal 0xBF 0 = some .reservedOpcode ∧
    decodeRefusal 0xC0 0 = some .reservedOpcode ∧ decodeRefusal 0xFF 0 = some .reservedOpcode := by decide

/-- V-T9, and one bit above a format. -/
theorem test_decode_refused_operands :
    decodeRefusal 0x00 0x0000010190000000000000000 = some .reservedLength ∧
    decodeRefusal 0x00 0x80000101100000000000000A0 = some .operandTooWide ∧ decodeRefusal 0x01 1 = some .operandTooWide := by
  decide

/-- The packings of section 0 read back. -/
theorem test_encode_packs :
    (encode cfg (.rbPut (frameOf wE))).arg = wE ∧ (encode cfg (.evRxComplete (nativeOf n3))).arg = n3 ∧
    (encode cfg (.faSetNumBuffers 4 3)).arg = 0x0304 := by decide

/-- V-T8: the operand word of a send. -/
theorem test_encode_send :
    (encode cfg (.faSendMessage (frameOf 0x600007A530000000000020190) false false true 2)).arg = 0x0A600007A530000000000020190 := by
  decide

/-- The opcode table numbers the opcode byte first, and the operand word from bit 8 up. -/
theorem test_tableWord :
    decodeTableWord 24 0x030445 = some (.faSetNumBuffers 4 3) ∧ decodeTableWord 8 0x4E = some .faHwm ∧
    decodeTableWord 8 0x4F = none := by decide

/-! ### One step of each family -/

/-- P1 step 6 (and V-M3's shape): a put into a full buffer evicts the oldest frame. -/
theorem test_rbPut_evicts :
    seen (exec (.rbPut (frameOf wE))
        (alone { ringFull with head := 0, tail := 0, puts := 4, overflows := 0, slots := four wA wB wC wD }))
      (fun t => (t.rb == some ringFull, resWord t)) = some (true, some 1) := by decide

/-- V-M4: the put that fills. -/
theorem test_rbPut_fills :
    seen (exec (.rbPut (frameOf wD)) (alone { ringE1 with head := 3, tail := 0, puts := 3, gets := 0, overflows := 0, hwm := 3 }))
        (fun t => (regs t, resWord t)) = some (some [0, 0, 1, 4, 4, 0, 0, 4], some 0) := by decide

/-- V-M1: the head wraps in an array of three. -/
theorem test_rbPut_wraps_head :
    seen (exec (.rbPut (frameOf wC))
        (alone { ringE1 with cap := 3, head := 2, tail := 1, size := 1, puts := 2, gets := 1, overflows := 0, hwm := 2 }))
      regs = some (some [0, 1, 0, 2, 3, 1, 0, 2]) := by decide

/-- P1 step 7: the oldest frame comes first, with `valid` in bit 99. -/
theorem test_rbGet_takes :
    seen (exec .rbGet (alone ringFull)) (fun t => (regs t, resWord t)) =
      some (some [1, 2, 0, 3, 5, 1, 1, 4], some 0x800001022000000000000B1B0) := by decide

/-- V-M6: a get from an empty buffer changes nothing. -/
theorem test_rbGet_empty :
    seen (exec .rbGet (alone ringEmpty)) (fun t => (t.rb, resWord t)) = some (some ringEmpty, some 0) := by decide

/-- S-P3: the bytes beyond the length are stored and returned. -/
theorem test_rbGet_whole_record :
    seen (exec .rbGet (alone { ringE1 with slots := four wE wB wX wD })) resWord = some (some 0x800005A51000000000000EE0D) := by
  decide

/-- V-M8. -/
theorem test_rbClear_full :
    seen (exec .rbClear (alone { ringFull with puts := 9, gets := 2, overflows := 3 })) regs =
      some (some [0, 0, 0, 0, 9, 2, 3, 4]) := by decide

/-- V-W1: a counter of two bits wraps. -/
theorem test_counter_wraps :
    seen (exec (.rbPut (frameOf wD))
        { alone { ringFull with cap := 2, size := 2, puts := 3, hwm := 2 } with config := { cfg with cntW := 2 } }) regs =
      some (some [0, 0, 1, 2, 0, 0, 2, 2]) := by decide

/-- Section 2.2, the column of E1. -/
theorem test_queries_E1 :
    [Instr.rbAvailable, .rbSize, .rbFreeSlots, .rbFull, .rbEmpty, .rbPuts, .rbGets, .rbOverflows, .rbHwm].map
        (fun i => seen (exec i (alone ringE1)) resWord) =
      [1, 3, 1, 0, 0, 5, 1, 1, 4].map (fun n => some (some n)) := by decide

/-- Section 2.2, the column of the full buffer. -/
theorem test_queries_full :
    [Instr.rbAvailable, .rbSize, .rbFreeSlots, .rbFull, .rbEmpty, .rbHwm].map
        (fun i => seen (exec i (alone ringFull)) resWord) =
      [1, 4, 0, 1, 0, 4].map (fun n => some (some n)) := by decide

/-- V-Q1: the head below the tail. -/
theorem test_rbSize_wrapped :
    seen (exec .rbSize (alone { ringE1 with cap := 5, head := 1, tail := 4, size := 2 })) resWord = some (some 2) := by decide

/-- V-T1, V-T3, V-T6: translation from native. -/
theorem test_fromNative :
    packFrame (fromNative (nativeOf n1)) = 0x000001232000000000000BBAA ∧ packFrame (fromNative (nativeOf n3)) = n3 := by decide

/-- V-T4: translation to native. -/
theorem test_toNative : packNative (toNative (frameOf wX)) = 0x000005A51000000000000000D := by decide

/-- V-A1: begin with the default capacity. -/
theorem test_faBegin :
    seen (exec (.faBegin false 0) { State.reset with answers := [true] })
        (fun t => (t.rb == some (RingBuffer.construct 16), t.allocated, t.started, resWord t)) =
      some (true, true, true, some 1) := by decide

/-- V-A3: a failed start undoes nothing. -/
theorem test_faBegin_fails :
    seen (exec (.faBegin false 0) { State.reset with answers := [false] })
        (fun t => (t.rb == some (RingBuffer.construct 16), t.allocated, t.started, resWord t)) =
      some (true, true, false, some 0) := by decide

/-- V-A4, V-A11, V-A5: the refusals of P6. -/
theorem test_fa_refusals :
    refusal (exec (.faBegin false 0) (begun ringE1 [])) = some .beginTwice ∧
    refusal (exec .faAvailable State.reset) = some .notBegun ∧
    refusal (exec (.faSetNumBuffers 0 0) State.reset) = some .badCapacity := by decide

/-- V-A11: legal before begin. -/
theorem test_fa_before_begin :
    seen (exec .faSent State.reset) resWord = some (some 0) ∧ seen (exec .faReceived State.reset) resWord = some (some 0) := by
  decide

/-- V-A5: configured before begin, without effect after it. -/
theorem test_faSetNumBuffers :
    seen (exec (.faSetNumBuffers 4 3) State.reset) (·.rxcap) = some 4 ∧
    seen (exec (.faSetNumBuffers 8 0) (begun ringE1 [])) (·.rxcap) = some 4 := by decide

/-- V-A6, V-A7. -/
theorem test_fa_no_effect :
    seen (exec (.faSetDebug true) State.reset) (·.debug) = some true ∧
    seen (exec .faReset (begun ringE1 [])) regs = some (some [1, 2, 0, 3, 5, 1, 1, 4]) ∧
    seen (exec .faPrintStatus (begun ringE1 [])) regs = some (some [1, 2, 0, 3, 5, 1, 1, 4]) := by decide

/-- P1 step 8 through the adapter, and V-A8: `received` counts an empty get too. -/
theorem test_faGetNextMessage :
    seen (exec .faGetNextMessage (begun ringE1 [])) (fun t => (t.received, resWord t)) =
      some (1, some 0x8000010330000000000C2C1C0) ∧
    seen (exec .faGetNextMessage (begun ringEmpty [])) (fun t => (t.received, t.rb, resWord t)) =
      some (1, some ringEmpty, some 0) := by decide

/-- V-A9 and P3 step 10: only a success is counted. -/
theorem test_faSendMessage_counts :
    seen (exec (.faSendMessage (frameOf wX) false false false 0) (begun ringE1 [true])) (fun t => (t.sent, resWord t)) =
      some (1, some 1) ∧
    seen (exec (.faSendMessage (frameOf wX) false false false 0) (begun ringE1 [false])) (fun t => (t.sent, resWord t)) =
      some (0, some 0) := by decide

/-- S-P7: the flags come from the arguments, also for the observer, which sees a failure too (V-A9). -/
theorem test_faSendMessage_flags :
    seen (exec (.faSendMessage (frameOf 0x600007A530000000000020190) false true true 2)
        { begun ringE1 [false] with config := { cfg with observer := true } })
      (fun t => t.out.strobe.map fun g => (g.1.rtr, g.1.ext, g.1.data, g.2)) =
      some (some (false, true, #v[0x90, 0x01, 0x02, 0, 0, 0, 0, 0], false)) := by decide

/-- P3 step 12 and V-A10: submitted as it is, not counted. -/
theorem test_faSendMessageNoUpdate :
    seen (exec (.faSendMessageNoUpdate (frameOf wX)) (begun ringE1 [true]))
        (fun t => (t.sent, t.out.commands, t.out.strobe, resWord t)) =
      some (0, [.submit (nativeOf 0x000005A51000000000000000D)], none, some 1) := by decide

/-- The statistics of E1 through the adapter. -/
theorem test_fa_statistics :
    [Instr.faAvailable, .faPuts, .faGets, .faOverflows, .faHwm].map (fun i => seen (exec i (begun ringE1 [])) resWord) =
      [1, 5, 1, 1, 4].map (fun n => some (some n)) := by decide

/-- V-E1: a frame received into an empty buffer of sixteen slots. -/
theorem test_evRxComplete :
    seen (exec (.evRxComplete (nativeOf n1)) (begun (RingBuffer.construct 16) []))
        (fun t => (regs t, t.rb.map fun rb => (Memory.read rb.slots 0).map packFrame)) =
      some (some [1, 0, 0, 1, 1, 0, 0, 1], some (some 0x000001232000000000000BBAA)) := by decide

/-- V-E4: no effect before begin. -/
theorem test_event_before_begin :
    seen (exec (.evRxComplete (nativeOf n1)) State.reset) (fun t => (t.rb, t.allocated)) = some (none, false) := by decide

/-- V-E3: the other events. -/
theorem test_events_change_nothing :
    ([Instr.evTxComplete, .evErrWarning, .evErrPassive, .evErrBusOff, .evBusRecovery, .evMailboxOverrun, .evBusLock,
        .evChannelError, .evTxAbort, .evGlobalError, .evFifoEmpty].map fun i =>
      seen (exec i (begun ringE1 [])) (fun t => t == begun ringE1 [])) = List.replicate 11 (some true) := by decide

/-- V-R2: an event on the application port, and an application operation on the event port. -/
theorem test_wrong_port :
    refusal (step { begun ringE1 [] with consumerPort := [{ op := 0x81, arg := 0 }] }) = some .wrongPort ∧
    refusal (step { begun ringE1 [] with producerPort := [{ op := 0x42, arg := 0 }] }) = some .wrongPort := by decide

/-- V-E6: capacity one, an event and a get presented together, in either order. -/
theorem test_coincident_orders :
    seen (step { begun ringOne [] with
        producerPort := [{ op := 0x80, arg := n1 }], consumerPort := [{ op := 0x42, arg := 0 }], turns := [.producer] }) regs =
      some (some [0, 0, 1, 1, 2, 0, 1, 1]) ∧
    seen (step { begun ringOne [] with
        producerPort := [{ op := 0x80, arg := n1 }], consumerPort := [{ op := 0x42, arg := 0 }], turns := [.consumer] }) regs =
      some (some [0, 0, 0, 0, 1, 1, 0, 1]) := by decide

/-- The next step runs the word that is placed. -/
theorem test_withFetchWord :
    seen (step (State.reset.withFetchWord 24 0x030445)) (·.rxcap) = some 4 ∧
    seen (step (State.reset.withFetchWord 8 0x04)) resWord = some (some 0) ∧
    seen (step (State.reset.withFetchWord 8 0x82)) (·.allocated) = some false := by decide

/-! ### States that meet the hypotheses of the statements

The ring buffers above meet the invariants at each boundary: three frames that wrap, full, drained, capacity one. -/

theorem ringE1_inv : RingBuffer.Inv cfg ringE1 := by constructor <;> decide

theorem ringFull_inv : RingBuffer.Inv cfg ringFull := by constructor <;> decide

theorem ringEmpty_inv : RingBuffer.Inv cfg ringEmpty := by constructor <;> decide

theorem ringOne_inv : RingBuffer.Inv cfg ringOne := by constructor <;> decide

/-- RB alone with a ring buffer that meets its invariants meets those of the block. -/
theorem alone_inv {rb : RingBuffer} (h : RingBuffer.Inv cfg rb) : (alone rb).Inv where
  rxcap_pos := (by decide : 1 ≤ 16)
  rxcap_legal := .inr rfl
  sent_lt := Nat.two_pow_pos _
  received_lt := Nat.two_pow_pos _
  started_allocated := fun e => nomatch e
  composed_allocated := fun e => nomatch e
  alone_constructed := fun _ => ⟨rfl, rfl⟩
  cap_latched := fun e => nomatch e
  rb_inv := fun _ e => by cases e; exact h
  res_fits := fun _ e => nomatch e

/-- So does the composed block after begin. -/
theorem begun_inv {rb : RingBuffer} (h : RingBuffer.Inv cfg rb) (answers : List Bool) : (begun rb answers).Inv where
  rxcap_pos := h.cap_pos
  rxcap_legal := .inl h.cap_le
  sent_lt := Nat.two_pow_pos _
  received_lt := Nat.two_pow_pos _
  started_allocated := fun _ => rfl
  composed_allocated := fun _ => rfl
  alone_constructed := fun e => nomatch e
  cap_latched := fun _ _ e => by cases e; rfl
  rb_inv := fun _ e => by cases e; exact h
  res_fits := fun _ e => nomatch e

/-- The composed block, ready to take one operation of the application. -/
def polled (op : Opcode) : State := { begun ringE1 [] with consumerPort := [{ op := op, arg := 0 }] }

theorem polled_inv (op : Opcode) : (polled op).Inv := { begun_inv ringE1_inv [] with }

/-- A step that takes an application operation. -/
theorem polled_step : ∃ t, step (polled 0x42) = .next t := ⟨_, rfl⟩

/-- Every clause: the head below the tail, the tail at or below the head, full, and empty. -/
theorem witness_OccupancyIsModularDifference :
    (1 < 4 ∧ 2 < 4 ∧ occ 4 1 2 false = 3) ∧ (3 < 4 ∧ 0 < 4 ∧ occ 4 3 0 false = 3) ∧ (1 < 4 ∧ occ 4 1 1 true = 4) ∧
      (0 < 1 ∧ occ 1 0 0 false = 0) := by decide

theorem witness_PredicatesFollowFromOccupancy :
    (RingBuffer.Inv cfg ringFull ∧ (alone ringFull).rb = some ringFull) ∧ RingBuffer.Inv cfg ringEmpty :=
  ⟨⟨ringFull_inv, rfl⟩, ringEmpty_inv⟩

/-- An index at the end of the array and one before it, a capacity of one, and a buffer with a frame to take. -/
theorem witness_IndexAdvanceWrapsAtCapacity :
    RingBuffer.Inv cfg ringE1 ∧ ringE1.inc 3 = 0 ∧ ringE1.inc 2 = 3 ∧ ringE1.occupancy ≠ 0 ∧
      RingBuffer.Inv cfg ringOne ∧ ringOne.cap = 1 := by
  refine ⟨ringE1_inv, ?_, ?_, ?_, ringOne_inv, rfl⟩ <;> decide

theorem witness_CumulativeCountersOnlyIncrement :
    (polled 0x42).Inv ∧ (∃ t, step (polled 0x42) = .next t) ∧ (polled 0x42).rb = some ringE1 :=
  ⟨polled_inv _, polled_step, rfl⟩

theorem witness_HighWaterMarkNeverFalls :
    RingBuffer.Inv cfg ringE1 ∧ (polled 0x42).Inv ∧ (∃ t, step (polled 0x42) = .next t) ∧ (polled 0x42).rb = some ringE1 :=
  ⟨ringE1_inv, polled_inv _, polled_step, rfl⟩

/-- A buffer with a free slot, and a full one. -/
theorem witness_RbPutStoresAtHeadAndAdvances :
    ((alone ringE1).rb = some ringE1 ∧ RingBuffer.Inv (alone ringE1).config ringE1) ∧
      ((alone ringFull).rb = some ringFull ∧ RingBuffer.Inv (alone ringFull).config ringFull) :=
  ⟨⟨rfl, ringE1_inv⟩, rfl, ringFull_inv⟩

/-- The least size there is a frame at: one. -/
theorem witness_RbGetTakesFrameAtTail :
    (alone ringOne).rb = some ringOne ∧ RingBuffer.Inv (alone ringOne).config ringOne ∧ 0 < ringOne.size :=
  ⟨rfl, ringOne_inv, Nat.one_pos⟩

theorem witness_RbGetOnEmptyChangesNothing :
    (alone ringEmpty).rb = some ringEmpty ∧ RingBuffer.Inv (alone ringEmpty).config ringEmpty ∧ ringEmpty.size = 0 ∧
      ∃ t r, exec .rbGet (alone ringEmpty) = .next t ∧ t.out.res = some r :=
  ⟨rfl, ringEmpty_inv, rfl, _, _, rfl, rfl⟩

theorem witness_RbClearEmptiesAndKeepsCounters :
    (alone ringFull).rb = some ringFull ∧ ∃ t rb', exec .rbClear (alone ringFull) = .next t ∧ t.rb = some rb' :=
  ⟨rfl, _, _, rfl, rfl⟩

/-- A buffer with a frame to take, and one with none. -/
theorem witness_RingBufferRefinesOverwritingQueue :
    ((alone ringOne).rb = some ringOne ∧ RingBuffer.Inv (alone ringOne).config ringOne ∧ ringOne.contents = frameOf wA :: []) ∧
      ((alone ringEmpty).rb = some ringEmpty ∧ RingBuffer.Inv (alone ringEmpty).config ringEmpty ∧ ringEmpty.contents = []) :=
  ⟨⟨rfl, ringOne_inv, rfl⟩, rfl, ringEmpty_inv, rfl⟩

/-- A run with a clear in it, and one without. -/
theorem witness_RegistersHoldTrueCountsOfRun :
    1 ≤ 4 ∧ 4 ≤ cfg.capMax ∧ (∀ i ∈ [Instr.rbPut defaultFrame, .rbGet, .rbClear], unitOf (opcodeOf i) = 0) ∧
      (.rbClear ∉ [Instr.rbPut defaultFrame, .rbGet]) := by decide

/-- Two puts into an empty buffer of capacity one, so that one overflows, and one put that fits. -/
theorem witness_BufferHoldsTheLastFramesPut :
    1 ≤ 1 ∧ 1 ≤ cfg.capMax ∧ (∀ i ∈ [Instr.rbPut defaultFrame, .rbGet], unitOf (opcodeOf i) = 0) ∧
      RingBuffer.Inv cfg (RingBuffer.construct 1) ∧ (RingBuffer.construct 1).size = 0 ∧
      [frameOf wA, frameOf wB].length = (RingBuffer.construct 1).cap + 1 ∧ [frameOf wA, frameOf wB][1]? = some (frameOf wB) ∧
      [frameOf wA].length ≤ (RingBuffer.construct 1).cap :=
  ⟨by decide, by decide, by decide, RingBuffer.construct_inv (by decide) (by decide), rfl, rfl, rfl, by decide⟩

theorem witness_RbPredicateQueriesAnswerFromSize :
    (alone ringE1).rb = some ringE1 ∧ RingBuffer.Inv (alone ringE1).config ringE1 := ⟨rfl, ringE1_inv⟩

theorem witness_RbSizeAndFreeSlotsSumToCapacity :
    (alone ringFull).rb = some ringFull ∧ RingBuffer.Inv (alone ringFull).config ringFull := ⟨rfl, ringFull_inv⟩

theorem witness_RbCounterQueriesReadTheirRegister : (alone ringE1).rb = some ringE1 := rfl

/-- A full buffer of capacity one, from which a get takes the last frame: a true answer turns false. -/
theorem witness_RbAvailableAnswerAndItsStaleness :
    (alone ringOne).rb = some ringOne ∧ RingBuffer.Inv (alone ringOne).config ringOne ∧ ringOne.full = true ∧ ringOne.cap = 1 ∧
      ∃ t rb', exec .rbGet (alone ringOne) = .next t ∧ t.rb = some rb' ∧ ringOne.isAvailable = true ∧ rb'.isAvailable = false :=
  ⟨rfl, ringOne_inv, rfl, rfl, _, _, rfl, rfl, rfl, rfl⟩

/-- A get from a full buffer, and a put that fills the last slot. -/
theorem witness_RbFullAnswerAndItsStaleness :
    ((alone ringOne).rb = some ringOne ∧ RingBuffer.Inv (alone ringOne).config ringOne ∧ ringOne.full = true ∧
      ∃ t rb', exec .rbGet (alone ringOne) = .next t ∧ t.rb = some rb' ∧ rb'.full = false) ∧
    ((alone ringE1).rb = some ringE1 ∧ RingBuffer.Inv (alone ringE1).config ringE1 ∧ ringE1.full = false ∧
      ringE1.size + 1 = ringE1.cap ∧ ∃ t rb', exec (.rbPut defaultFrame) (alone ringE1) = .next t ∧ t.rb = some rb') :=
  ⟨⟨rfl, ringOne_inv, rfl, _, _, rfl, rfl, rfl⟩, rfl, ringE1_inv, rfl, rfl, _, _, rfl, rfl⟩

theorem witness_RbHwmAnswerAndItsBounds :
    (alone ringFull).rb = some ringFull ∧ RingBuffer.Inv (alone ringFull).config ringFull ∧ ringFull.full = true ∧
      ∃ t rb', exec .rbGet (alone ringFull) = .next t ∧ t.rb = some rb' ∧ ∀ p b, Instr.rbGet ≠ .faBegin p b :=
  ⟨rfl, ringFull_inv, rfl, _, _, rfl, rfl, fun _ _ e => nomatch e⟩

theorem witness_RbOperationsNeedARingBuffer : State.reset.rb = none ∧ unitOf (opcodeOf .rbGet) = 0 := by decide

/-- Every byte at and beyond the length of frame A is zero, as is every byte of native frame n3. -/
theorem witness_TranslationRoundTrips :
    (∀ (i : Nat) (h : i < 8), (frameOf wA).len.val ≤ i → (frameOf wA).data[i] = 0) ∧
      (∀ (i : Nat) (h : i < 8), (nativeOf n3).dlc.val ≤ i → (nativeOf n3).data[i] = 0) := by decide

/-- With an answer said by the environment, and with none; a capacity at each end of its range. -/
theorem witness_FaBeginConstructsAndStarts :
    (State.reset.allocated = false ∧ 1 ≤ State.reset.rxcap ∧ State.reset.rxcap ≤ State.reset.config.capMax ∧
      State.reset.answers = []) ∧ { State.reset with answers := [true] }.answers = true :: [] ∧
      (1 ≤ 255 ∧ 255 ≤ State.reset.config.capMax) := by decide

/-- Begun, and not; a capacity below the range and one above it. -/
theorem witness_AdapterRefusalsByLifecycle :
    (begun ringE1 []).allocated = true ∧ State.reset.allocated = false ∧ (0 = 0 ∨ State.reset.config.capMax < 0) ∧
      (256 = 0 ∨ State.reset.config.capMax < 256) ∧ { State.reset with rxcap := 0 }.rxcap = 0 := by decide

theorem witness_FaQueriesAnswerFromTheRingBuffer :
    (begun ringE1 []).allocated = true ∧ (begun ringE1 []).rb = some ringE1 ∧ RingBuffer.Inv (begun ringE1 []).config ringE1 :=
  ⟨rfl, rfl, ringE1_inv⟩

/-- A buffer with one frame, and an empty one. -/
theorem witness_FaGetNextMessageTakesAndAlwaysCounts :
    ((begun ringOne []).allocated = true ∧ (begun ringOne []).rb = some ringOne ∧
      RingBuffer.Inv (begun ringOne []).config ringOne ∧ 0 < ringOne.size) ∧
    ((begun ringEmpty []).allocated = true ∧ (begun ringEmpty []).rb = some ringEmpty ∧
      RingBuffer.Inv (begun ringEmpty []).config ringEmpty ∧ ringEmpty.size = 0) :=
  ⟨⟨rfl, rfl, ringOne_inv, Nat.one_pos⟩, rfl, rfl, ringEmpty_inv, rfl⟩

/-- With an answer said by the environment, and with none. -/
theorem witness_FaSendMessageStampsSubmitsAndCounts :
    ((begun ringE1 [true]).allocated = true ∧ (begun ringE1 [true]).answers = true :: []) ∧
      ((begun ringE1 []).allocated = true ∧ (begun ringE1 []).answers = []) := by decide

theorem witness_FaSendMessageNoUpdateSubmitsOnly :
    ((begun ringE1 [false]).allocated = true ∧ (begun ringE1 [false]).answers = false :: []) ∧
      ((begun ringE1 []).allocated = true ∧ (begun ringE1 []).answers = []) := by decide

/-- The least and the greatest capacity before begin, and a state after it. -/
theorem witness_FaSetNumBuffersConfiguresBeforeBegin :
    (State.reset.allocated = false ∧ 1 ≤ 1 ∧ 1 ≤ State.reset.config.capMax) ∧ (1 ≤ 255 ∧ 255 ≤ State.reset.config.capMax) ∧
      (begun ringE1 []).allocated = true := by decide

theorem witness_IgnoredOperandsAndDebugHaveNoEffect :
    (∀ b, Instr.faSent ≠ .faSetDebug b) ∧ ∃ t, exec .faSent State.reset = .next t := ⟨fun _ e => (nomatch e), _, rfl⟩

/-- A buffer with a free slot, and a full one. -/
theorem witness_EvRxCompletePutsTranslatedFrame :
    ((begun ringE1 []).allocated = true ∧ (begun ringE1 []).rb = some ringE1 ∧ RingBuffer.Inv (begun ringE1 []).config ringE1) ∧
      ((begun ringFull []).allocated = true ∧ (begun ringFull []).rb = some ringFull ∧
        RingBuffer.Inv (begun ringFull []).config ringFull) :=
  ⟨⟨rfl, rfl, ringE1_inv⟩, rfl, rfl, ringFull_inv⟩

theorem witness_ReportedEventsChangeNoState :
    (Instr.evTxComplete, (0x81 : Opcode)) ∈ ([(.evTxComplete, 0x81), (.evErrWarning, 0x82)] : List (Instr × Opcode)) := by decide

theorem witness_EventBeforeRegistrationHasNoEffect :
    State.reset.allocated = false ∧ unitOf (opcodeOf (.evRxComplete (nativeOf n1))) = 2 ∧ unitOf (opcodeOf .evFifoEmpty) = 2 := by
  decide

/-- Two producer steps, from a buffer whose counters are far from wrapping. -/
theorem witness_ProducerStepsKeepTrueAnswersTrue :
    (begun ringE1 []).rb = some ringE1 ∧ RingBuffer.Inv (begun ringE1 []).config ringE1 ∧
      (∀ i ∈ [Instr.evRxComplete (nativeOf n1), .evTxComplete], issuerOf (opcodeOf i) = .producer) ∧
      ringE1.isAvailable = true ∧ ringE1.puts + 2 < 2 ^ (begun ringE1 []).config.cntW ∧
      ringE1.overflows + 2 < 2 ^ (begun ringE1 []).config.cntW ∧ ringFull.full = true :=
  ⟨rfl, ringE1_inv, by decide, rfl, by decide, by decide, rfl⟩

/-- Operands at the greatest value their field admits. -/
theorem witness_DecodeInvertsEncode :
    (Instr.faSendMessage (frameOf wE) true true true 15).wellFormed cfg = true ∧ (Instr.faBegin true 255).wellFormed cfg = true ∧
      (Instr.faSetNumBuffers 255 255).wellFormed cfg = true := by decide

theorem witness_EncodeInvertsDecode : decode cfg { op := 0x45, arg := 0x0304 } = .ok (.faSetNumBuffers 4 3) := rfl

/-- The least and the greatest reserved length pattern. -/
theorem witness_PackedFrameLayout : 9 ≤ field (9 * 2 ^ 64) 64 4 ∧ 9 ≤ field (15 * 2 ^ 64) 64 4 := by decide

theorem witness_OperandFieldPositions : 255 < 2 ^ cfg.sizeW := by decide

/-- A reserved length, and a reserved opcode that a step takes. -/
theorem witness_ReservedEncodingsAreRefused :
    9 ≤ field (9 * 2 ^ 64) 64 4 ∧ (∃ s', takeNext (polled 0x4F) = some (.consumer, { op := 0x4F, arg := 0 }, s')) ∧
      ∀ i, decode (polled 0x4F).config { op := 0x4F, arg := 0 } ≠ .ok i :=
  ⟨by decide, ⟨_, rfl⟩, fun _ e => nomatch e⟩

theorem witness_StepRunsTheDecodedOperation :
    (polled 0x42).consumerPort = { op := 0x42, arg := 0 } :: [] ∧ (polled 0x42).producerPort = [] ∧
      decode (polled 0x42).config { op := 0x42, arg := 0 } = .ok .faGetNextMessage ∧
      accepts (portOf (polled 0x42).deployment .consumer) 0x42 = true ∧
      decode (polled 0x42).config { op := 0x82, arg := 0 } = .ok .evErrWarning ∧
      accepts (portOf (polled 0x42).deployment .producer) 0x82 = true := ⟨rfl, rfl, rfl, rfl, rfl, rfl⟩

/-- An event and an application operation presented at once. -/
theorem witness_CoincidentPresentationsInEitherOrder :
    decode (polled 0x42).config { op := 0x82, arg := 0 } = .ok .evErrWarning ∧
      decode (polled 0x42).config { op := 0x42, arg := 0 } = .ok .faGetNextMessage ∧
      accepts (portOf (polled 0x42).deployment .producer) 0x82 = true ∧
      accepts (portOf (polled 0x42).deployment .consumer) 0x42 = true ∧ (polled 0x42).turns = [] := ⟨rfl, rfl, rfl, rfl, rfl⟩

theorem witness_OperationsOnTheWrongPortAreRefused :
    (∃ s', takeNext (polled 0x82) = some (.consumer, { op := 0x82, arg := 0 }, s')) ∧
      decode (polled 0x82).config { op := 0x82, arg := 0 } = .ok .evErrWarning ∧
      accepts (portOf (polled 0x82).deployment .consumer) 0x82 = false := ⟨⟨_, rfl⟩, rfl, rfl⟩

theorem witness_IdleStepChangesNoRegister : State.reset.producerPort = [] ∧ State.reset.consumerPort = [] := ⟨rfl, rfl⟩

/-- An operation that is admitted, and one that is not. -/
theorem witness_AcceptedOperationsNeverBlock :
    (begun ringE1 []).Inv ∧ accepts (portOf (begun ringE1 []).deployment .consumer) (opcodeOf .faAvailable) = true ∧
      admitted (begun ringE1 []) .faAvailable = true ∧ admitted (begun ringE1 []) (.faBegin false 0) = false :=
  ⟨begun_inv ringE1_inv [], rfl, rfl, rfl⟩

theorem witness_ResetLeavesTheStatedValues :
    unitOf (opcodeOf .evTxComplete) = 2 ∧ ∃ t, exec (.faBegin false 0) State.reset = .next t := ⟨rfl, _, rfl⟩

/-- A capacity at each end of its range. -/
theorem witness_InvariantsHoldAtReset : (1 ≤ 1 ∧ 1 ≤ cfg.capMax) ∧ (1 ≤ 255 ∧ 255 ≤ cfg.capMax) := by decide

theorem witness_StepKeepsTheInvariants : (polled 0x42).Inv ∧ ∃ t, step (polled 0x42) = .next t := ⟨polled_inv _, polled_step⟩

theorem witness_LaunchParametersAndCapacityAreFixed :
    (polled 0x42).Inv ∧ (∃ t, step (polled 0x42) = .next t) ∧ (polled 0x42).allocated = true ∧ (polled 0x42).rb = some ringE1 :=
  ⟨polled_inv _, polled_step, rfl, rfl⟩

/-- A put, which writes at the head only, and a get, which writes no slot. -/
theorem witness_OnlyPutsWriteSlots :
    (alone ringE1).rb = some ringE1 ∧
      (∃ t rb', exec (.rbPut defaultFrame) (alone ringE1) = .next t ∧ t.rb = some rb' ∧ 0 ≠ ringE1.head) ∧
      (∃ t rb', exec .rbGet (alone ringE1) = .next t ∧ t.rb = some rb') ∧ (∀ p b, Instr.rbGet ≠ .faBegin p b) ∧
      (∀ f, Instr.rbGet ≠ .rbPut f) ∧ ∀ n, Instr.rbGet ≠ .evRxComplete n :=
  ⟨rfl, ⟨_, _, rfl, rfl, by decide⟩, ⟨_, _, rfl, rfl⟩, fun _ _ e => (nomatch e), fun _ e => (nomatch e), fun _ e => nomatch e⟩

/-- Operations that change a register of each kind. -/
theorem witness_RegistersChangeOnlyByTheirOperations :
    seen (exec (.faSendMessage defaultFrame false false false 0) (begun ringE1 [true])) (·.sent) = some 1 ∧
      seen (exec .faGetNextMessage (begun ringE1 [])) (·.received) = some 1 ∧
      seen (exec (.faSetDebug true) State.reset) (·.debug) = some true ∧
      seen (exec (.faSetNumBuffers 4 0) State.reset) (·.rxcap) = some 4 ∧
      seen (exec (.faBegin false 0) State.reset) (fun t => (t.allocated, t.rb.isSome)) = some (true, true) ∧
      seen (exec .rbGet (alone ringFull)) regs = some (some [1, 2, 0, 3, 5, 1, 1, 4]) := by decide

theorem witness_PresentedTableWordRunsNext :
    decode State.reset.config (tableWord 24 0x030445) = .ok (.faSetNumBuffers 4 3) := rfl

end Sys2Proof.Tests
end

/-! PROOFS. The statements of 00_scope.md: the ring buffer as a bounded queue, and what a step runs. -/

namespace Sys2Proof.Machine

section RingBufferAsQueue

variable {c : Config} {s : State} {rb : RingBuffer}

/-- Writing back the ring buffer that stands in the state changes nothing. -/
theorem State.withRb_self (h : s.rb = some rb) : s.withRb rb = s := by
  unfold State.withRb
  rw [← h]

/-- The buffer holds no frame exactly where its size is 0. -/
theorem RingBuffer.contents_eq_nil_iff (rb : RingBuffer) : rb.contents = [] ↔ rb.size = 0 := by
  rw [← List.length_eq_zero_iff, RingBuffer.contents_length]

/-- R29 (b): the full flag says that the queue holds CAP frames. -/
theorem RingBuffer.Inv.full_eq (h : RingBuffer.Inv c rb) : rb.full = decide (rb.contents.length = rb.cap) := by
  rw [RingBuffer.contents_length, Bool.eq_iff_iff, decide_eq_true_iff]
  exact h.full_iff

/-- get, where the queue is not empty, answers its first frame and leaves the rest. -/
theorem RingBuffer.Inv.get_cons {f : Frame} {q : List Frame} (h : RingBuffer.Inv c rb) (hc : rb.contents = f :: q) :
    rb.getResult = .frame f true ∧ (rb.get c).contents = q := by
  have hp : 0 < rb.size := by
    rw [← RingBuffer.contents_length, hc]
    exact Nat.zero_lt_succ _
  obtain ⟨hf, hq⟩ : rb.frameAt rb.tail = f ∧ (rb.get c).contents = q :=
    List.cons_eq_cons.1 ((h.contents_get hp).symm.trans hc)
  exact ⟨hf ▸ (h.get_nonempty hp).2, hq⟩

/-- RB.GET, where the queue is empty, drives the default frame and changes no register (R145 (a)). -/
theorem RingBuffer.Inv.exec_rbGet_empty (h : RingBuffer.Inv s.config rb) (hrb : s.rb = some rb) (hz : rb.size = 0) :
    exec .rbGet s = .next (s.report (some (.frame defaultFrame false))) := by
  obtain ⟨hget, hres⟩ := h.get_empty hz
  rw [exec_rbGet hrb, hget, hres, State.withRb_self hrb]

end RingBufferAsQueue

/-- Settles O10: `contents` is the abstraction function, and put, get and clear each commute with it. -/
theorem ringBufferRefinesOverwritingQueue : Obligations.RingBufferRefinesOverwritingQueue := by
  intro s rb hrb h
  refine ⟨rb.contents_length, fun f => ?put, fun f q hc => ?get, fun hc => ?getEmpty, ?clear⟩
  case put => exact ⟨rb.put s.config f, h.full_eq ▸ exec_rbPut f hrb, h.put f, h.contents_put f⟩
  case get =>
    obtain ⟨hres, hq⟩ := h.get_cons hc
    exact ⟨rb.get s.config, hres ▸ exec_rbGet hrb, h.get, hq⟩
  case getEmpty => exact h.exec_rbGet_empty hrb (rb.contents_eq_nil_iff.1 hc)
  case clear => exact ⟨rb.clear, exec_rbClear hrb, h.clear, rb.contents_clear⟩

section TheStep

variable {s s' : State} {a : Agent} {w : OpWord} {ws : List OpWord} {i : Instr}

/-- With both ports empty there is no presentation to take. -/
theorem takeNext_idle (hp : s.producerPort = []) (hc : s.consumerPort = []) : takeNext s = none := by
  simp only [takeNext, hp, hc]

/-- Where the consumer alone presents, its oldest presentation is taken. -/
theorem takeNext_consumer_alone (hp : s.producerPort = []) (hc : s.consumerPort = w :: ws) :
    takeNext s = some (.consumer, w, { s with consumerPort := ws }) := by
  simp only [takeNext, hp, hc]

/-- Where the producer alone presents, its oldest presentation is taken. -/
theorem takeNext_producer_alone (hp : s.producerPort = w :: ws) (hc : s.consumerPort = []) :
    takeNext s = some (.producer, w, { s with producerPort := ws }) := by
  simp only [takeNext, hp, hc]

/-- A step that takes nothing is idle. -/
theorem step_of_takeNext_none (ht : takeNext s = none) : step s = .next (s.report none) := by
  simp only [step, ht]

/-- A step that takes a word of an operation its port accepts is exec of that operation. -/
theorem step_of_takeNext_accepted (ht : takeNext s = some (a, w, s')) (hd : decode s.config w = .ok i)
    (ha : accepts (portOf s.deployment a) w.op = true) : step s = exec i s' := by
  simp only [step, ht, hd, ha, if_true]

end TheStep

/-- Settles O43: the one agent that presents is the one whose presentation the step takes and runs. -/
theorem stepRunsTheDecodedOperation : Obligations.StepRunsTheDecodedOperation :=
  ⟨fun _ _ _ _ hc hp => step_of_takeNext_accepted (takeNext_consumer_alone hp hc),
    fun _ _ _ _ hp hc => step_of_takeNext_accepted (takeNext_producer_alone hp hc)⟩

/-- Settles O46: with both ports empty the step takes nothing, and only drives the empty outputs. -/
theorem idleStepChangesNoRegister : Obligations.IdleStepChangesNoRegister :=
  fun _ hp hc => step_of_takeNext_none (takeNext_idle hp hc)

end Sys2Proof.Machine

/-! PROOFS. The statements of 10_state.md: the occupancy and what follows from it, the invariants at reset and along every step,
what no step changes, and which operation changes which register. -/

namespace Sys2Proof.Machine

section Invariants

variable {c : Config} {s s' t : State} {a : Agent} {w : OpWord} {i : Instr} {rb rb' : RingBuffer} {r : Result}

/-- The result fits its word (30_encoding.md R102). -/
def Result.Fits (c : Config) (r : Result) : Prop := r.word < 2 ^ r.width c

theorem Result.Fits.bit (b : Bool) : (Result.bit b).Fits c := b.toNat_lt

theorem Result.Fits.frame (f : Frame) (v : Bool) : (Result.frame f v).Fits c := by
  have hf := packFrame_lt f
  have hv := v.toNat_lt
  show packFrame f + v.toNat * 2 ^ 99 < 2 ^ 100
  omega

theorem Result.Fits.size {n : Nat} (h : n ≤ c.capMax) : (Result.size n).Fits c :=
  Nat.lt_of_le_of_lt h (lt_two_pow_bitLength c.capMax)

theorem Result.Fits.count {n : Nat} (h : n < 2 ^ c.cntW) : (Result.count n).Fits c := h

theorem RingBuffer.getResult_fits (rb : RingBuffer) : rb.getResult.Fits c := by
  unfold RingBuffer.getResult
  split <;> exact Result.Fits.frame _ _

theorem cinc_lt (c : Config) (n : Nat) : cinc c n < 2 ^ c.cntW := Nat.mod_lt _ (Nat.two_pow_pos _)

theorem RingBuffer.Inv.occupancy_le_capMax (h : RingBuffer.Inv c rb) : rb.occupancy ≤ c.capMax :=
  h.size_eq ▸ h.size_le.trans h.cap_le

/-- The invariants speak of no port, and of neither the turns nor the draws. -/
theorem State.Inv.takeNext (h : s.Inv) (ht : takeNext s = some (a, w, s')) : s'.Inv := by
  obtain ⟨_, _, _, _, rfl⟩ := takeNext_frame ht
  exact { h with }

/-- Drawing an answer of the environment keeps the invariants: they speak of neither the answers nor the draws. -/
theorem State.Inv.draw (h : s.Inv) (answers : List Bool) (draws : Nat) :
    State.Inv { s with answers := answers, draws := draws } := { h with }

/-- Driving the output ports keeps the invariants where the result fits its word. -/
theorem State.Inv.drive {o : Outputs} (h : s.Inv) (hres : o.res = some r) (hr : r.Fits s.config) :
    State.Inv { s with out := o } :=
  { h with res_fits := fun _ e => Option.some.inj (hres.symm.trans e) ▸ hr }

theorem State.Inv.report_none (h : s.Inv) : (s.report none).Inv := { h with res_fits := nofun }

theorem State.Inv.report_some (h : s.Inv) (hr : r.Fits s.config) : (s.report (some r)).Inv := h.drive rfl hr

/-- A ring buffer gives way to another of the same capacity. -/
theorem State.Inv.withRb (h : s.Inv) (hrb : s.rb = some rb) (hinv : RingBuffer.Inv s.config rb') (hcap : rb'.cap = rb.cap) :
    (s.withRb rb').Inv :=
  { h with
    composed_allocated := fun hd => (h.composed_allocated hd).trans (by rw [hrb]; rfl)
    alone_constructed := fun hd => ⟨rfl, (h.alone_constructed hd).2⟩
    cap_latched := fun ha _ e => Option.some.inj e ▸ hcap.trans (h.cap_latched ha rb hrb)
    rb_inv := fun _ e => Option.some.inj e ▸ hinv }

/-- The allocation of begin, in the composed block: a new ring buffer of the configured capacity (10_state.md R42). -/
theorem State.Inv.allocate (h : s.Inv) (hd : s.deployment = .composed) (h1 : 1 ≤ s.rxcap) (h2 : s.rxcap ≤ s.config.capMax) :
    State.Inv { s with rb := some (RingBuffer.construct s.rxcap), allocated := true } :=
  { h with
    started_allocated := fun _ => rfl
    composed_allocated := fun _ => rfl
    alone_constructed := fun ha => nomatch hd.symm.trans ha
    cap_latched := fun _ _ e => Option.some.inj e ▸ rfl
    rb_inv := fun _ e => Option.some.inj e ▸ RingBuffer.construct_inv h1 h2 }

theorem State.Inv.start (h : s.Inv) (ha : s.allocated = true) (ok : Bool) : State.Inv { s with started := ok } :=
  { h with started_allocated := fun _ => ha }

/-- Before begin, any legal capacity may be configured (10_state.md R41). -/
theorem State.Inv.configure {n : Nat} (h : s.Inv) (ha : s.allocated = false) (h1 : 1 ≤ n) (h2 : n ≤ s.config.capMax) :
    State.Inv { s with rxcap := n } :=
  { h with
    rxcap_pos := h1
    rxcap_legal := .inl h2
    cap_latched := fun e => nomatch ha.symm.trans e }

theorem State.Inv.count_received (h : s.Inv) : State.Inv { s with received := cinc s.config s.received } :=
  { h with received_lt := cinc_lt _ _ }

theorem State.Inv.count_sent (h : s.Inv) (counted : Bool) :
    State.Inv { s with sent := if counted then cinc s.config s.sent else s.sent } := by
  refine { h with sent_lt := ?_ }
  cases counted
  · exact h.sent_lt
  · exact cinc_lt _ _

/-- What an operation does keeps the invariants, begin in the composed block only. -/
theorem Effect.inv (he : Effect i s t) (h : s.Inv) (hb : ∀ p b, i = .faBegin p b → s.deployment = .composed) : t.Inv := by
  cases he with
  | report r hr =>
    rcases hr with rfl | ⟨b, rfl⟩ | ⟨rb, hrb, rfl⟩ | ⟨rb, hrb, hcount⟩ | rfl | rfl
    · exact h.report_none
    · exact h.report_some (.bit b)
    · have hI := h.rb_inv rb hrb
      exact h.report_some (.size (hI.hwm_le.trans hI.cap_le))
    · have hI := h.rb_inv rb hrb
      rcases hcount with rfl | rfl | rfl
      · exact h.report_some (.count hI.puts_lt)
      · exact h.report_some (.count hI.gets_lt)
      · exact h.report_some (.count hI.overflows_lt)
    · exact h.report_some (.count h.sent_lt)
    · exact h.report_some (.count h.received_lt)
  | ringBuffer rb rb' r hrb hc hr hi =>
    have hI := h.rb_inv rb hrb
    have h' := h.withRb hrb (hc.inv hI) hc.cap_eq
    rcases hr with rfl | ⟨b, rfl⟩ | rfl | rfl | rfl
    · exact h'.report_none
    · exact h'.report_some (.bit b)
    · exact h'.report_some rb.getResult_fits
    · exact h'.report_some (.size hI.occupancy_le_capMax)
    · exact h'.report_some (.size ((Nat.sub_le _ _).trans hI.cap_le))
  | receive rb hrb hi =>
    have h' := h.withRb hrb (h.rb_inv rb hrb).get (rb.get_frame _).1
    exact h'.count_received.report_some rb.getResult_fits
  | begin hi ha h1 h2 =>
    obtain ⟨p, b, rfl⟩ := hi
    rw [s.afterAnswer_eq]
    have h' := ((h.draw s.afterAnswer.answers s.afterAnswer.draws).allocate (hb p b rfl) h1 h2).start rfl
      (s.answerFrom Config.startAnswer)
    exact h'.drive rfl (.bit _)
  | send g counted strobe hi =>
    rw [s.afterAnswer_eq]
    have h' := (h.draw s.afterAnswer.answers s.afterAnswer.draws).count_sent counted
    exact h'.drive rfl (.bit _)
  | setCapacity n hi ha h1 h2 => exact (h.configure ha h1 h2).report_none
  | setDebug b hi => exact State.Inv.report_none { h with }

end Invariants

/-- Settles O50: the step is idle, or takes a presentation and runs its operation, whose effect keeps the invariants. -/
theorem stepKeepsTheInvariants : Obligations.StepKeepsTheInvariants := by
  intro s t h hs
  rcases step_cases hs with rfl | ⟨a, w, s', i, ht, hd, ha, he⟩
  · exact h.report_none
  · refine (exec_effect he).inv (h.takeNext ht) ?_
    rintro p b rfl
    obtain ⟨-, hdep, -⟩ := takeNext_registers ht
    rw [← decode_opcode hd] at ha
    exact hdep.trans (accepts_begin ha)

section Lifetime

variable {s t : State} {rb : RingBuffer}

/-- After reset nothing is constructed or allocated, and no result is driven (70_reset_and_hazards.md R270). -/
theorem State.launch_inv (c : Config) : (State.launch c).Inv where
  rxcap_pos := show 1 ≤ Config.capDefault by decide
  rxcap_legal := .inr rfl
  sent_lt := Nat.two_pow_pos _
  received_lt := Nat.two_pow_pos _
  started_allocated := nofun
  composed_allocated _ := rfl
  alone_constructed := nofun
  cap_latched := nofun
  rb_inv := nofun
  res_fits := nofun

/-- RB alone differs in its ring buffer, new and of legal capacity, and in the use of the block. -/
theorem State.launchAlone_inv {c : Config} {cap : Nat} (h1 : 1 ≤ cap) (h2 : cap ≤ c.capMax) : (State.launchAlone c cap).Inv :=
  { State.launch_inv c with
    composed_allocated := nofun
    alone_constructed := fun _ => ⟨rfl, rfl⟩
    cap_latched := nofun
    rb_inv := fun _ e => Option.some.inj e ▸ RingBuffer.construct_inv h1 h2 }

/-- From a state that meets the invariants, a step keeps the ring buffer and its capacity (10_state.md R34). -/
theorem step_keeps_cap (h : s.Inv) (hs : step s = .next t) (hrb : s.rb = some rb) :
    ∃ rb', t.rb = some rb' ∧ rb'.cap = rb.cap := by
  obtain ⟨-, -, -, -, -, hchange⟩ := step_frame h hs
  obtain ⟨rb', hrb', rfl | ⟨i, hc⟩⟩ := hchange rb hrb
  · exact ⟨rb', hrb', rfl⟩
  · exact ⟨rb', hrb', hc.cap_eq⟩

end Lifetime

/-- Settles O49: the reset states hold no ring buffer, or a new one of legal capacity. -/
theorem invariantsHoldAtReset : Obligations.InvariantsHoldAtReset :=
  ⟨State.launch_inv, fun _ _ => State.launchAlone_inv, State.launch_inv _⟩

/-- Settles O51: what a step can do to what outlives it, and that no change of a ring buffer alters its capacity. -/
theorem launchParametersAndCapacityAreFixed : Obligations.LaunchParametersAndCapacityAreFixed := by
  intro s t h hs
  obtain ⟨hcfg, hdep, -, -, hlatched, -⟩ := step_frame h hs
  exact ⟨hcfg, hdep, fun ha => (hlatched ha).1, fun _ => step_keeps_cap h hs, fun ha => (hlatched ha).2⟩

section Occupancy

variable {cap head tail : Nat} {c : Config} {rb : RingBuffer}

theorem occ_full : occ cap head tail true = cap := rfl

theorem occ_of_tail_le (h : tail ≤ head) : occ cap head tail false = head - tail := if_pos h

theorem occ_of_head_lt (h : head < tail) : occ cap head tail false = cap - tail + head := if_neg (Nat.not_le.2 h)

/-- A buffer that is not full holds fewer than CAP frames. -/
theorem occ_lt (hh : head < cap) (ht : tail < cap) : occ cap head tail false < cap := by
  rcases Nat.lt_or_ge head tail with h | h
  · rw [occ_of_head_lt h]
    omega
  · rw [occ_of_tail_le h]
    omega

theorem occ_le (full : Bool) (hh : head < cap) (ht : tail < cap) : occ cap head tail full ≤ cap := by
  cases full
  · exact (occ_lt hh ht).le
  · exact occ_full.le

/-- R28: where the head is behind the tail, the difference is negative, and one CAP makes it the remainder. -/
theorem occ_eq_emod (hh : head < cap) (ht : tail < cap) :
    (occ cap head tail false : Int) = ((head : Int) - (tail : Int)) % (cap : Int) := by
  rcases Nat.lt_or_ge head tail with h | h
  · rw [occ_of_head_lt h, ← Int.add_emod_right, Int.emod_eq_of_lt (by omega) (by omega)]
    omega
  · rw [occ_of_tail_le h, Int.emod_eq_of_lt (by omega) (by omega)]
    omega

theorem RingBuffer.isAvailable_iff (rb : RingBuffer) : rb.isAvailable = true ↔ rb.full = true ∨ rb.head ≠ rb.tail := by
  simp [RingBuffer.isAvailable]

theorem RingBuffer.Inv.available_iff_occupancy (h : RingBuffer.Inv c rb) : rb.isAvailable = true ↔ rb.occupancy ≠ 0 := by
  rw [h.available_iff, h.size_eq, Nat.pos_iff_ne_zero]

theorem RingBuffer.Inv.full_iff_occupancy (h : RingBuffer.Inv c rb) : rb.full = true ↔ rb.occupancy = rb.cap := by
  rw [h.full_iff, h.size_eq]

end Occupancy

/-- Settles O1: the closed form in each case of the full flag and of the order of head and tail. -/
theorem occupancyIsModularDifference : Obligations.OccupancyIsModularDifference := by
  intro cap head tail full hh ht
  refine ⟨?modular, ?full, ?headAhead, ?headBehind, occ_le full hh ht, ?notFull⟩
  case modular =>
    cases full
    · exact occ_eq_emod hh ht
    · rfl
  case full => rintro rfl; exact occ_full
  case headAhead => rintro rfl; exact occ_of_tail_le
  case headBehind => rintro rfl; exact occ_of_head_lt
  case notFull => rintro rfl; exact occ_lt hh ht

/-- Settles O2: the predicates read the flag and the indices, whose occupancy the invariants put in the size cache. -/
theorem predicatesFollowFromOccupancy : Obligations.PredicatesFollowFromOccupancy := fun _ rb h =>
  ⟨h.available_iff_occupancy, rb.isAvailable_iff, rb.isEmpty_eq, h.full_iff_occupancy, fun _ => exec_rbFull⟩

/-- Settles O19: each RB operation is one on the ring buffer; the other operations are of another unit. -/
theorem rbOperationsNeedARingBuffer : Obligations.RbOperationsNeedARingBuffer := by
  intro s i hrb hu
  cases i with
  | rbPut | rbGet | rbClear | rbAvailable | rbSize | rbFreeSlots | rbFull | rbEmpty | rbPuts | rbGets | rbOverflows | rbHwm =>
    exact onRingBuffer_none _ hrb
  | _ => simp [opcodeOf, unitOf] at hu

section DebugFlag

variable {s : State} {d : Bool} {i : Instr}

/-- The state with the debug flag at another value (10_state.md R43). -/
def State.withDebug (s : State) (d : Bool) : State := { s with debug := d }

/-- An outcome with the debug flag of its next state at another value; where the step stops there is no next state. -/
def outcomeWithDebug (d : Bool) : Host.Outcome State Fault Refusal → Host.Outcome State Fault Refusal
  | .next t => .next (t.withDebug d)
  | .fault e => .fault e
  | .refused e => .refused e

theorem State.withDebug_afterAnswer : (s.withDebug d).afterAnswer = s.afterAnswer.withDebug d := by
  cases h : s.answers <;> simp [State.afterAnswer, State.withDebug, h]

theorem onRingBuffer_withDebug {k k' : RingBuffer → Host.Outcome State Fault Refusal}
    (hk : ∀ rb, k' rb = outcomeWithDebug d (k rb)) :
    onRingBuffer (s.withDebug d) k' = outcomeWithDebug d (onRingBuffer s k) := by
  cases h : s.rb with
  | none => rw [onRingBuffer_none k h, onRingBuffer_none (s := s.withDebug d) k' h]; rfl
  | some rb => rw [onRingBuffer_some k h, onRingBuffer_some (s := s.withDebug d) k' h, hk]

theorem answerQuery_withDebug (r : RingBuffer → Result) :
    answerQuery (s.withDebug d) r = outcomeWithDebug d (answerQuery s r) := onRingBuffer_withDebug fun _ => rfl

theorem afterBegin_withDebug {k k' : Host.Outcome State Fault Refusal} (hk : k' = outcomeWithDebug d k) :
    afterBegin (s.withDebug d) k' = outcomeWithDebug d (afterBegin s k) := by
  cases h : s.allocated
  · rw [afterBegin_not_begun k h, afterBegin_not_begun (s := s.withDebug d) k' h]; rfl
  · rw [afterBegin_begun k h, afterBegin_begun (s := s.withDebug d) k' h, hk]

theorem deliver_withDebug {k k' : Host.Outcome State Fault Refusal} (hk : k' = outcomeWithDebug d k) :
    deliver (s.withDebug d) k' = outcomeWithDebug d (deliver s k) := by
  cases h : s.allocated
  · rw [deliver_unregistered k h, deliver_unregistered (s := s.withDebug d) k' h]; rfl
  · rw [deliver_registered k h, deliver_registered (s := s.withDebug d) k' h, hk]

/-- No operation but FA.SETDEBUG reads or writes the debug flag: what it answers is the same, the flag aside. -/
theorem exec_withDebug (hi : ∀ b, i ≠ .faSetDebug b) : exec i (s.withDebug d) = outcomeWithDebug d (exec i s) := by
  cases i with
  | rbPut | rbGet | rbClear | rbSize | rbFreeSlots => exact onRingBuffer_withDebug fun _ => rfl
  | rbAvailable | rbFull | rbEmpty | rbPuts | rbGets | rbOverflows | rbHwm => exact answerQuery_withDebug _
  | faBegin p b =>
    simp only [exec, execFaBegin, apply_ite (outcomeWithDebug d), State.withDebug_afterAnswer]
    rfl
  | faAvailable | faPuts | faGets | faOverflows | faHwm => exact afterBegin_withDebug (answerQuery_withDebug _)
  | faGetNextMessage => exact afterBegin_withDebug (onRingBuffer_withDebug fun _ => rfl)
  | faSendMessage | faSendMessageNoUpdate =>
    exact afterBegin_withDebug (by rw [State.withDebug_afterAnswer]; rfl)
  | faSetNumBuffers rx tx =>
    simp only [exec, execFaSetNumBuffers, apply_ite (outcomeWithDebug d)]
    rfl
  | faSetDebug b => exact absurd rfl (hi b)
  | faReset | faPrintStatus | faSent | faReceived => rfl
  | evRxComplete => exact deliver_withDebug (onRingBuffer_withDebug fun _ => rfl)
  | evTxComplete | evErrWarning | evErrPassive | evErrBusOff | evBusRecovery | evMailboxOverrun | evBusLock | evChannelError
  | evTxAbort | evGlobalError | evFifoEmpty => exact deliver_withDebug rfl

end DebugFlag

section RegisterTable

variable {c : Config} {s t : State} {i : Instr} {rb rb' : RingBuffer}

/-- What no operation changes: the parameters, the use of the block, the ports and the turns. -/
theorem Effect.frame (he : Effect i s t) :
    t.config = s.config ∧ t.deployment = s.deployment ∧ t.producerPort = s.producerPort ∧ t.consumerPort = s.consumerPort ∧
      t.turns = s.turns := by
  cases he <;> simp

theorem Effect.received_eq (he : Effect i s t) (hi : i ≠ .faGetNextMessage) : t.received = s.received := by
  cases he with
  | receive rb hrb h => exact absurd h hi
  | _ => simp

theorem Effect.debug_eq (he : Effect i s t) (hi : ¬ ∃ b, i = .faSetDebug b) : t.debug = s.debug := by
  cases he with
  | setDebug b h => exact absurd ⟨b, h⟩ hi
  | _ => simp

theorem Effect.rxcap_eq (he : Effect i s t) (hi : ¬ (s.allocated = false ∧ ∃ rx tx, i = .faSetNumBuffers rx tx)) :
    t.rxcap = s.rxcap := by
  cases he with
  | setCapacity n h ha => exact absurd ⟨ha, n, h⟩ hi
  | _ => simp

/-- Only FA.BEGIN writes the lifecycle flags. -/
theorem Effect.lifecycle_eq (he : Effect i s t) (hi : ¬ ∃ p b, i = .faBegin p b) :
    t.allocated = s.allocated ∧ t.started = s.started := by
  cases he with
  | begin h => exact absurd h hi
  | _ => simp

/-- Only FA.BEGIN and the sends ask the peripheral and command it. -/
theorem Effect.peripheral_eq (he : Effect i s t)
    (hi : ¬ ((∃ p b, i = .faBegin p b) ∨ (∃ f r e v p, i = .faSendMessage f r e v p) ∨ ∃ f, i = .faSendMessageNoUpdate f)) :
    t.answers = s.answers ∧ t.draws = s.draws ∧ t.out.commands = [] := by
  cases he with
  | begin h => exact absurd (.inl h) hi
  | send g k st h => exact absurd (.inr h) hi
  | _ => exact ⟨rfl, rfl, rfl⟩

/-- FA.SENDMESSAGENOUPDATE counts nothing and calls no observer (43_frame_adapter.md R205). -/
theorem exec_faSendMessageNoUpdate_next {f : Frame} (h : exec (.faSendMessageNoUpdate f) s = .next t) :
    t.sent = s.sent ∧ t.out.strobe = none := by
  obtain ⟨-, h⟩ := afterBegin_next h
  cases h
  exact ⟨s.afterAnswer_sent, rfl⟩

/-- FA.SENDMESSAGE strobes only a present observer (43_frame_adapter.md R204). -/
theorem exec_faSendMessage_strobe {f : Frame} {r e v : Bool} {p : Nat}
    (h : exec (.faSendMessage f r e v p) s = .next t) (ho : s.config.observer = false) : t.out.strobe = none := by
  obtain ⟨-, h⟩ := afterBegin_next h
  cases h
  simp [ho]

theorem exec_sent_eq (h : exec i s = .next t) (hi : ¬ ∃ f r e v p, i = .faSendMessage f r e v p) : t.sent = s.sent := by
  cases exec_effect h with
  | send g k st hs =>
    obtain ⟨f, rfl⟩ := hs.resolve_left hi
    exact (exec_faSendMessageNoUpdate_next h).1
  | _ => simp

theorem exec_strobe_eq (h : exec i s = .next t)
    (hi : ¬ (s.config.observer = true ∧ ∃ f r e v p, i = .faSendMessage f r e v p)) : t.out.strobe = none := by
  cases exec_effect h with
  | send g k st hs =>
    rcases hs with hs | ⟨f, rfl⟩
    · have ho : s.config.observer = false := Bool.eq_false_iff.2 fun ho => hi ⟨ho, hs⟩
      obtain ⟨f, r, e, v, p, rfl⟩ := hs
      exact exec_faSendMessage_strobe h ho
    · exact (exec_faSendMessageNoUpdate_next h).2
  | _ => rfl

/-- Without FA.BEGIN the ring buffer, or its absence, stays, but for one of the changes. -/
theorem Effect.rb_eq_or_change (he : Effect i s t) (hi : ¬ ∃ p b, i = .faBegin p b) :
    t.rb = s.rb ∨ ∃ rb rb', s.rb = some rb ∧ t.rb = some rb' ∧ RingBuffer.Change s.config i rb rb' := by
  cases he with
  | ringBuffer rb rb' r hrb hc => exact .inr ⟨rb, rb', hrb, rfl, hc⟩
  | receive rb hrb h => exact .inr ⟨rb, _, hrb, rfl, .get (.inr h)⟩
  | begin h => exact absurd h hi
  | _ => exact .inl (by simp)

theorem Effect.rb_isSome_eq (he : Effect i s t) (hi : ¬ ∃ p b, i = .faBegin p b) : t.rb.isSome = s.rb.isSome := by
  rcases he.rb_eq_or_change hi with h | ⟨rb, rb', h, h', -⟩
  · rw [h]
  · rw [h, h']; rfl

/-- The ring buffer's rows of the register table: which operation may have changed which register (10_state.md R50). -/
def RingBuffer.ChangedByTable (i : Instr) (rb rb' : RingBuffer) : Prop :=
  rb'.cap = rb.cap ∧
  (rb'.head ≠ rb.head → (∃ f, i = .rbPut f) ∨ (∃ n, i = .evRxComplete n) ∨ i = .rbClear) ∧
  (rb'.tail ≠ rb.tail ∨ rb'.full ≠ rb.full →
    (∃ f, i = .rbPut f) ∨ (∃ n, i = .evRxComplete n) ∨ i = .rbGet ∨ i = .faGetNextMessage ∨ i = .rbClear) ∧
  (rb'.size ≠ rb.size →
    (∃ f, i = .rbPut f) ∨ (∃ n, i = .evRxComplete n) ∨ i = .rbGet ∨ i = .faGetNextMessage ∨ i = .rbClear ∨
      i = .rbSize ∨ i = .rbFreeSlots) ∧
  (rb'.puts ≠ rb.puts ∨ rb'.overflows ≠ rb.overflows ∨ rb'.hwm ≠ rb.hwm → (∃ f, i = .rbPut f) ∨ ∃ n, i = .evRxComplete n) ∧
  (rb'.gets ≠ rb.gets → i = .rbGet ∨ i = .faGetNextMessage)

theorem RingBuffer.changedByTable_refl (i : Instr) (rb : RingBuffer) : rb.ChangedByTable i rb := by
  simp [RingBuffer.ChangedByTable]

/-- Each change is one the table gives its operation. -/
theorem RingBuffer.Change.changedByTable (hc : RingBuffer.Change c i rb rb') : rb.ChangedByTable i rb' := by
  unfold RingBuffer.ChangedByTable
  cases hc with
  | put f h => rcases h with rfl | ⟨n, rfl, -⟩ <;> simp [RingBuffer.put]
  | get h =>
    obtain ⟨hcap, hhead, hputs, hovf, hhwm, -⟩ := rb.get_frame c
    rcases h with rfl | rfl <;> simp [hcap, hhead, hputs, hovf, hhwm]
  | clear h => simp [h, RingBuffer.clear]
  | recompute h => rcases h with rfl | rfl <;> simp [RingBuffer.recompute]

theorem Effect.changedByTable (he : Effect i s t) (hi : ¬ ∃ p b, i = .faBegin p b) (hrb : s.rb = some rb)
    (hrb' : t.rb = some rb') : rb.ChangedByTable i rb' := by
  rcases he.rb_eq_or_change hi with h | ⟨_, _, h, h', hc⟩
  · obtain rfl : rb' = rb := Option.some.inj (hrb'.symm.trans (h.trans hrb))
    exact rb'.changedByTable_refl i
  · obtain rfl := Option.some.inj (h.symm.trans hrb)
    obtain rfl := Option.some.inj (h'.symm.trans hrb')
    exact hc.changedByTable

end RegisterTable

/-- Settles O52: each register stays where the operation is none of those the table names. -/
theorem registersChangeOnlyByTheirOperations : Obligations.RegistersChangeOnlyByTheirOperations := by
  intro s t i h
  have he := exec_effect h
  obtain ⟨hcfg, hdep, hprod, hcons, hturns⟩ := he.frame
  refine ⟨hcfg, hdep, hprod, hcons, hturns, ?sent, ?received, ?debug, ?rxcap, ?lifecycle, ?peripheral, ?strobe, ?constructed,
    ?ringBuffer⟩
  case sent => exact not_imp_comm.1 (exec_sent_eq h)
  case received => exact not_imp_comm.1 he.received_eq
  case debug => exact not_imp_comm.1 he.debug_eq
  case rxcap => exact not_imp_comm.1 he.rxcap_eq
  case lifecycle => exact fun hne => not_imp_comm.1 he.lifecycle_eq (not_and_or.2 hne)
  case peripheral => exact fun hne => not_imp_comm.1 he.peripheral_eq (by rwa [not_and_or, not_and_or])
  case strobe => exact not_imp_comm.1 (exec_strobe_eq h)
  case constructed => exact not_imp_comm.1 he.rb_isSome_eq
  case ringBuffer => exact fun rb rb' hrb hrb' hi => he.changedByTable (fun ⟨p, b, e⟩ => hi p b e) hrb hrb'

/-- Settles O32: the ignored operands are not read, and every operation but FA.SETDEBUG commutes with setting the flag. -/
theorem ignoredOperandsAndDebugHaveNoEffect : Obligations.IgnoredOperandsAndDebugHaveNoEffect := by
  refine ⟨fun _ _ _ _ _ => rfl, fun _ _ _ _ => rfl, fun _ _ _ _ _ _ => rfl, fun s t i d hi h => ⟨?kept, ?same⟩⟩
  case kept => exact (exec_effect h).debug_eq (not_exists.2 hi)
  case same => exact (exec_withDebug hi).trans (congrArg (outcomeWithDebug d) h)

end Sys2Proof.Machine

/-! PROOFS. The statements of 20_memory.md: who writes the slots, and in which order coincident presentations are taken. -/

namespace Sys2Proof.Machine

section SlotWrites

variable {c : Config} {s t : State} {i : Instr} {rb rb' : RingBuffer}

theorem RingBuffer.get_slots (c : Config) (rb : RingBuffer) : (rb.get c).slots = rb.slots := by
  obtain ⟨-, -, -, -, -, hslots⟩ := rb.get_frame c
  exact hslots

/-- Of the changes, put alone reaches the slot memory. -/
theorem RingBuffer.Change.slots_eq (hc : RingBuffer.Change c i rb rb') (hput : ∀ f, i ≠ .rbPut f)
    (hrx : ∀ n, i ≠ .evRxComplete n) : rb'.slots = rb.slots := by
  cases hc with
  | put f h =>
    rcases h with h | ⟨n, h, -⟩
    · exact absurd h (hput f)
    · exact absurd h (hrx n)
  | get => exact rb.get_slots c
  | clear => rfl
  | recompute => rfl

/-- A put writes at the old head, so every other slot reads as before any change. -/
theorem RingBuffer.Change.read_ne_head {j : Nat} (hc : RingBuffer.Change c i rb rb') (hj : j ≠ rb.head) :
    Memory.read rb'.slots j = Memory.read rb.slots j := by
  cases hc with
  | put f => exact Memory.read_write_ne rb.slots f hj
  | get => rw [rb.get_slots c]
  | clear => rfl
  | recompute => rfl

/-- Without FA.BEGIN, the ring buffer an operation leaves is the one it found, or differs by one of the changes. -/
theorem Effect.ringBuffer_eq_or_change (he : Effect i s t) (hi : ¬ ∃ p b, i = .faBegin p b) (hrb : s.rb = some rb)
    (hrb' : t.rb = some rb') : rb' = rb ∨ RingBuffer.Change s.config i rb rb' := by
  rcases he.rb_eq_or_change hi with h | ⟨_, _, h, h', hc⟩
  · exact .inl (Option.some.inj (hrb'.symm.trans (h.trans hrb)))
  · obtain rfl := Option.some.inj (h.symm.trans hrb)
    obtain rfl := Option.some.inj (h'.symm.trans hrb')
    exact .inr hc

end SlotWrites

/-- Settles O53: the ring buffer stays or changes, and of the changes put alone writes slots, at the old head only. -/
theorem onlyPutsWriteSlots : Obligations.OnlyPutsWriteSlots := by
  intro s t rb rb' i h hrb hrb' hi
  have hnb : ¬ ∃ p b, i = .faBegin p b := fun ⟨p, b, e⟩ => hi p b e
  rcases (exec_effect h).ringBuffer_eq_or_change hnb hrb hrb' with rfl | hc
  · exact ⟨fun _ _ => rfl, fun _ _ => rfl⟩
  · exact ⟨hc.slots_eq, fun _ => hc.read_ne_head⟩

section CoincidentPresentations

variable {s : State} {p q : OpWord} {ps qs : List OpWord} {ts : List Agent}

/-- Where both agents present and the environment names the producer, the producer's presentation is taken. -/
theorem takeNext_both_producer (hp : s.producerPort = p :: ps) (hq : s.consumerPort = q :: qs)
    (ht : s.turns = .producer :: ts) :
    takeNext s = some (.producer, p, { s with producerPort := ps, turns := ts }) := by
  simp only [takeNext, hp, hq, ht]

/-- Where both agents present and the environment names the consumer, the consumer's presentation is taken. -/
theorem takeNext_both_consumer (hp : s.producerPort = p :: ps) (hq : s.consumerPort = q :: qs)
    (ht : s.turns = .consumer :: ts) :
    takeNext s = some (.consumer, q, { s with consumerPort := qs, turns := ts }) := by
  simp only [takeNext, hp, hq, ht]

/-- Where both agents present and the environment names neither, a free value says whose presentation is taken. -/
theorem takeNext_both_unnamed (hp : s.producerPort = p :: ps) (hq : s.consumerPort = q :: qs) (ht : s.turns = []) :
    takeNext s = some (.producer, p, { s with producerPort := ps, draws := s.draws + 1 }) ∨
      takeNext s = some (.consumer, q, { s with consumerPort := qs, draws := s.draws + 1 }) := by
  cases hf : Config.producerFirst s.draws
  · exact .inr (by simp [takeNext, hp, hq, ht, hf])
  · exact .inl (by simp [takeNext, hp, hq, ht, hf])

end CoincidentPresentations

/-- Settles O44: whichever agent's presentation is taken, its port accepts the operation, so the step runs it. -/
theorem coincidentPresentationsInEitherOrder : Obligations.CoincidentPresentationsInEitherOrder := by
  intro s p q ps qs i j hp hq hdp hdq hap haq
  refine ⟨fun ts ht => ?producer, fun ts ht => ?consumer, fun ht => ?unnamed⟩
  case producer => exact step_of_takeNext_accepted (takeNext_both_producer hp hq ht) hdp hap
  case consumer => exact step_of_takeNext_accepted (takeNext_both_consumer hp hq ht) hdq haq
  case unnamed =>
    exact (takeNext_both_unnamed hp hq ht).imp (step_of_takeNext_accepted · hdp hap) (step_of_takeNext_accepted · hdq haq)

end Sys2Proof.Machine

/-! PROOFS. The statements of 30_encoding.md: the two round trips, where the fields stand, and the words and ports a step refuses. -/

namespace Sys2Proof

section RoundTrips

variable {c : Config} {i : Instr} {arg m n : Nat}

/-- The part of an (m + n)-bit word above its low `m` bits has `n` bits. -/
theorem div_two_pow_lt (h : arg < 2 ^ (m + n)) : arg / 2 ^ m < 2 ^ n :=
  Nat.div_lt_of_lt_mul (Nat.pow_add 2 m n ▸ h)

theorem frameOperand_packFrame_alone (f : Frame) (k : Frame → Instr) : frameOperand (packFrame f) k = .ok (k f) := by
  simpa using frameOperand_packFrame f 0 k

theorem nativeOperand_packNative_alone (n : NativeFrame) (k : NativeFrame → Instr) :
    nativeOperand (packNative n) k = .ok (k n) := by
  simpa using nativeOperand_packNative n 0 k

/-- A frame with nothing above it in a 99-bit operand word packs back to that word. -/
theorem frameOperand_ok_alone {k : Frame → Instr} (h : operandOf 99 arg (frameOperand arg k) = .ok i) :
    ∃ f, i = k f ∧ packFrame f = arg ∧ arg < 2 ^ 99 := by
  obtain ⟨h, hlt⟩ := operandOf_ok h
  obtain ⟨f, hi, hf⟩ := frameOperand_ok h
  exact ⟨f, hi, hf.trans (Nat.mod_eq_of_lt hlt), hlt⟩

theorem nativeOperand_ok_alone {k : NativeFrame → Instr} (h : operandOf 99 arg (nativeOperand arg k) = .ok i) :
    ∃ n, i = k n ∧ packNative n = arg ∧ arg < 2 ^ 99 := by
  obtain ⟨h, hlt⟩ := operandOf_ok h
  obtain ⟨n, hi, hn⟩ := nativeOperand_ok h
  exact ⟨n, hi, hn.trans (Nat.mod_eq_of_lt hlt), hlt⟩

/-- A word is its lowest bit and what stands above it. -/
theorem beginWord_of_fields (w : Nat) : (bitAt w 0).toNat + w / 2 * 2 = w := by
  rw [bitAt_toNat, field]
  omega

/-- A send's operand word is its packed frame, its three flags and its priority. -/
theorem sendWord_of_fields {w : Nat} {f : Frame} (h : packFrame f = w % 2 ^ 99) :
    packFrame f + (bitAt w 99).toNat * 2 ^ 99 + (bitAt w 100).toNat * 2 ^ 100 + (bitAt w 101).toNat * 2 ^ 101 +
      w / 2 ^ 102 * 2 ^ 102 = w := by
  simp only [h, bitAt_toNat, field]
  omega

theorem debugWord_field (b : Bool) : bitAt b.toNat 0 = b := by cases b <;> decide

theorem beginWord_lt (a : Bool) {b : Nat} (h : b < 2 ^ n) : a.toNat + b * 2 < 2 ^ (1 + n) := by
  have := Bool.toNat_le a
  rw [Nat.pow_add]
  omega

theorem capacityWord_lt {a b : Nat} (ha : a < 2 ^ n) (hb : b < 2 ^ n) : a + b * 2 ^ n < 2 ^ (2 * n) :=
  calc a + b * 2 ^ n < (b + 1) * 2 ^ n := by rw [Nat.succ_mul]; omega
    _ ≤ 2 ^ n * 2 ^ n := Nat.mul_le_mul_right _ hb
    _ = 2 ^ (2 * n) := by rw [← Nat.pow_add, Nat.two_mul]

/-- Every operand word fits its format and reads back field by field. -/
theorem decode_encode (h : i.wellFormed c = true) : decode c (encode c i) = .ok i := by
  cases i with
  | rbPut f =>
    rw [encode, opcodeOf, operandWord, decode_rbPut, operandOf_lt _ (packFrame_lt f), frameOperand_packFrame_alone]
  | faSendMessageNoUpdate f =>
    rw [encode, opcodeOf, operandWord, decode_faSendMessageNoUpdate, operandOf_lt _ (packFrame_lt f),
      frameOperand_packFrame_alone]
  | evRxComplete n =>
    rw [encode, opcodeOf, operandWord, decode_evRxComplete, operandOf_lt _ (packNative_lt n), nativeOperand_packNative_alone]
  | faBegin p b =>
    obtain ⟨hp, hb⟩ := beginWord_fields p b
    rw [encode, opcodeOf, operandWord, decode_faBegin, operandOf_lt _ (beginWord_lt p (of_decide_eq_true h)), hp, hb]
  | faSendMessage f r e v p =>
    obtain ⟨-, hr, he, hv, hp⟩ := sendWord_fields f r e v p
    rw [encode, opcodeOf, operandWord, decode_faSendMessage, operandOf_lt _ (sendWord_lt f r e v (of_decide_eq_true h)),
      hr, he, hv, hp, sendWord_eq, frameOperand_packFrame]
  | faSetNumBuffers rx tx =>
    obtain ⟨hrx, htx⟩ : rx < 2 ^ c.sizeW ∧ tx < 2 ^ c.sizeW := by simpa [Instr.wellFormed] using h
    obtain ⟨hlow, hhigh⟩ := capacityWord_fields (b := tx) hrx
    rw [encode, opcodeOf, operandWord, decode_faSetNumBuffers, operandOf_lt _ (capacityWord_lt hrx htx), hlow, hhigh]
  | faSetDebug b =>
    rw [encode, opcodeOf, operandWord, decode_faSetDebug, operandOf_lt _ b.toNat_lt, debugWord_field]
  | _ => rfl

/-- What an operand word means under the opcode of an operation it decodes to: the operands fit, and packing them gives the
word back, as wide as its format. -/
theorem operandWord_of_decode (h : decode c { op := opcodeOf i, arg := arg } = .ok i) :
    i.wellFormed c = true ∧ operandWord c i = arg ∧ arg < 2 ^ operandWidth c i := by
  cases i with
  | rbPut f | faSendMessageNoUpdate f =>
    obtain ⟨g, hi, hg, hlt⟩ := frameOperand_ok_alone h
    cases hi
    exact ⟨rfl, hg, hlt⟩
  | evRxComplete n =>
    obtain ⟨g, hi, hg, hlt⟩ := nativeOperand_ok_alone h
    cases hi
    exact ⟨rfl, hg, hlt⟩
  | faBegin p b =>
    rw [opcodeOf, decode_faBegin] at h
    obtain ⟨hi, hlt⟩ := operandOf_ok h
    cases hi
    exact ⟨decide_eq_true (div_two_pow_lt (m := 1) hlt), beginWord_of_fields arg, hlt⟩
  | faSendMessage f r e v p =>
    rw [opcodeOf, decode_faSendMessage] at h
    obtain ⟨h, hlt⟩ := operandOf_ok h
    obtain ⟨g, hi, hg⟩ := frameOperand_ok h
    cases hi
    exact ⟨decide_eq_true (div_two_pow_lt hlt), sendWord_of_fields hg, hlt⟩
  | faSetNumBuffers rx tx =>
    rw [opcodeOf, decode_faSetNumBuffers] at h
    obtain ⟨hi, hlt⟩ := operandOf_ok h
    cases hi
    have hlow : arg % 2 ^ c.sizeW < 2 ^ c.sizeW := Nat.mod_lt _ (Nat.two_pow_pos _)
    have hhigh : arg / 2 ^ c.sizeW < 2 ^ c.sizeW := div_two_pow_lt (Nat.two_mul _ ▸ hlt)
    exact ⟨by simp [Instr.wellFormed, hlow, hhigh], Nat.mod_add_div' _ _, hlt⟩
  | faSetDebug b =>
    rw [opcodeOf, decode_faSetDebug] at h
    obtain ⟨hi, hlt⟩ := operandOf_ok h
    cases hi
    refine ⟨rfl, ?_, hlt⟩
    rw [operandWord, bitAt_toNat, field]
    omega
  | _ =>
    obtain ⟨-, rfl⟩ := noOperand_ok h
    exact ⟨rfl, rfl, Nat.one_pos⟩

end RoundTrips

/-- Settles O37: every operand word reads back field by field. -/
theorem decodeInvertsEncode : Obligations.DecodeInvertsEncode := fun _ _ => decode_encode

/-- Settles O38: the opcode of what decodes is the one presented, and under it the operand word has one meaning. -/
theorem encodeInvertsDecode : Obligations.EncodeInvertsDecode := by
  intro c ⟨op, arg⟩ i h
  obtain rfl : opcodeOf i = op := decode_opcode h
  obtain ⟨hwf, hword, hlt⟩ := operandWord_of_decode h
  exact ⟨hwf, congrArg (OpWord.mk _) hword, hlt⟩

theorem field_zero (w n : Nat) : field w 0 n = w % 2 ^ n := by rw [field, Nat.pow_zero, Nat.div_one]

/-- Where the five fields of a packed frame stand, in both kinds of frame. -/
theorem frameWord_layout (id : Identifier) (len : PayloadLength) (data : Payload) (remote extended : Bool) :
    frameWord id len data remote extended < 2 ^ 99 ∧
    (∀ (i : Nat) (h : i < 8), field (frameWord id len data remote extended) (8 * i) 8 = (data[i]).toNat) ∧
    field (frameWord id len data remote extended) 64 4 = len.val ∧
    field (frameWord id len data remote extended) 68 29 = id.toNat ∧
    bitAt (frameWord id len data remote extended) 97 = remote ∧
    bitAt (frameWord id len data remote extended) 98 = extended := by
  have hpad : frameWord id len data remote extended = frameWord id len data remote extended + 0 * 2 ^ 99 := by
    rw [Nat.zero_mul, Nat.add_zero]
  refine ⟨frameWord_lt id len data remote extended, ?_⟩
  rw [hpad]
  exact ⟨field_frameWord_data id len data remote extended 0,
    field_frameWord_len id len data remote extended 0, field_frameWord_id id len data remote extended 0,
    bitAt_frameWord_remote id len data remote extended 0, bitAt_frameWord_extended id len data remote extended 0⟩

theorem unpackFrame_reserved {w : Nat} (h : 9 ≤ field w 64 4) : unpackFrame w = none := dif_neg (Nat.not_lt.2 h)

theorem unpackNative_reserved {w : Nat} (h : 9 ≤ field w 64 4) : unpackNative w = none := dif_neg (Nat.not_lt.2 h)

/-- Settles O39: both kinds of frame have the one layout, and neither unpacks from a reserved length pattern. -/
theorem packedFrameLayout : Obligations.PackedFrameLayout :=
  ⟨fun f => frameWord_layout f.id f.len f.data f.rtr f.ext,
    fun n => frameWord_layout n.id n.dlc n.data n.remote n.extended,
    fun _ h => ⟨unpackFrame_reserved h, unpackNative_reserved h⟩⟩

/-- Settles O40: format F is the packed frame itself, and the other formats read back field by field. -/
theorem operandFieldPositions : Obligations.OperandFieldPositions := by
  intro c
  refine ⟨fun _ => ⟨rfl, rfl⟩, fun _ => rfl, fun f r e v p => ?send, fun pm bi => ?begin, fun rx tx hrx => ?capacities,
    fun b => ?debug⟩
  case send =>
    obtain ⟨hf, hr, he, hv, hp⟩ := sendWord_fields f r e v p
    exact ⟨hf, hr, he, hv, congrArg (· % 2 ^ c.prioW) hp⟩
  case begin =>
    obtain ⟨hpm, hbi⟩ := beginWord_fields pm bi
    exact ⟨hpm, congrArg (· % 2 ^ c.busIfW) hbi⟩
  case capacities =>
    obtain ⟨hlow, hhigh⟩ := capacityWord_fields (b := tx) hrx
    exact ⟨(field_zero _ _).trans hlow, congrArg (· % 2 ^ c.sizeW) hhigh⟩
  case debug => exact debugWord_field b

/-- Settles O42: the decoder evaluated at each word. -/
theorem writtenOutWordsDecode : Obligations.WrittenOutWordsDecode :=
  ⟨rfl, rfl, rfl, rfl, rfl, rfl, rfl, rfl⟩

section ReservedEncodings

variable {c : Config} {w : OpWord} {i : Instr} {arg : Nat}

/-! An opcode that names an operation is never refused as reserved, whatever its operand word. -/

@[simp] theorem noOperand_ne_reservedOpcode : noOperand i arg ≠ .error .reservedOpcode := by
  unfold noOperand
  split <;> simp

@[simp] theorem operandOf_ne_reservedOpcode {n : Nat} {e : Except DecodeError Instr} (h : e ≠ .error .reservedOpcode) :
    operandOf n arg e ≠ .error .reservedOpcode := by
  unfold operandOf
  split
  · exact h
  · simp

@[simp] theorem frameOperand_ne_reservedOpcode {k : Frame → Instr} : frameOperand arg k ≠ .error .reservedOpcode := by
  unfold frameOperand
  split <;> simp

@[simp] theorem nativeOperand_ne_reservedOpcode {k : NativeFrame → Instr} :
    nativeOperand arg k ≠ .error .reservedOpcode := by
  unfold nativeOperand
  split <;> simp

/-- R113: the decoder refuses an opcode as reserved exactly in the three ranges no operation has. -/
theorem decode_reservedOpcode_iff :
    (0x0C ≤ w.op.toNat ∧ w.op.toNat ≤ 0x3F) ∨ (0x4F ≤ w.op.toNat ∧ w.op.toNat ≤ 0x7F) ∨ 0x8C ≤ w.op.toNat ↔
      decode c w = .error .reservedOpcode := by
  have hlt : w.op.toNat < 256 := w.op.isLt
  unfold decode
  split
  case h_40 =>
    refine iff_of_true ?_ rfl
    simp only [imp_false] at *
    omega
  all_goals exact iff_of_false (by omega) (by simp)

/-- R104, R115: an operand word with a reserved length pattern is no operation where the opcode takes a frame. -/
theorem decode_reservedLength (hop : w.op = 0x00 ∨ w.op = 0x43 ∨ w.op = 0x44 ∨ w.op = 0x80)
    (hlen : 9 ≤ field w.arg 64 4) : decode c w ≠ .ok i := by
  obtain ⟨op, arg⟩ := w
  intro h
  obtain rfl | rfl | rfl | rfl : op = 0x00 ∨ op = 0x43 ∨ op = 0x44 ∨ op = 0x80 := hop
  case inr.inr.inr => exact nomatch (nativeOperand_reserved _ hlen).symm.trans (operandOf_ok h).1
  all_goals exact nomatch (frameOperand_reserved _ hlen).symm.trans (operandOf_ok h).1

end ReservedEncodings

end Sys2Proof

namespace Sys2Proof.Machine

section RefusedPresentations

variable {s s' : State} {a : Agent} {w : OpWord} {i : Instr}

/-- A step that takes a word that is no operation is refused by the name the decoder gives. -/
theorem step_of_takeNext_undecoded {e : DecodeError} (ht : takeNext s = some (a, w, s')) (hd : decode s.config w = .error e) :
    step s = .refused (refusalOf e) := by
  simp only [step, ht, hd]

/-- A step that takes an operation its port does not accept is refused. -/
theorem step_of_takeNext_wrongPort (ht : takeNext s = some (a, w, s')) (hd : decode s.config w = .ok i)
    (ha : accepts (portOf s.deployment a) w.op = false) : step s = .refused .wrongPort := by
  simp [step, ht, hd, ha]

theorem refusalOf_cases (e : DecodeError) :
    refusalOf e = .reservedOpcode ∨ refusalOf e = .reservedLength ∨ refusalOf e = .operandTooWide := by
  cases e <;> simp [refusalOf]

/-- Opcode 0 is RB.PUT. -/
theorem opcodeOf_eq_zero_iff : opcodeOf i = 0x00 ↔ ∃ f, i = .rbPut f := by
  cases i <;> simp [opcodeOf]

/-- Every operation belongs to one of the three units (30_encoding.md R101). -/
theorem unitOf_opcodeOf (i : Instr) : unitOf (opcodeOf i) = 0 ∨ unitOf (opcodeOf i) = 1 ∨ unitOf (opcodeOf i) = 2 := by
  cases i <;> simp [opcodeOf, unitOf]

end RefusedPresentations

/-- Settles O41: the reserved ranges are those the opcode map leaves, and the step passes the decoder's refusal on. -/
theorem reservedEncodingsAreRefused : Obligations.ReservedEncodingsAreRefused := by
  refine ⟨fun _ _ => decode_reservedOpcode_iff, fun _ _ hop hlen _ => decode_reservedLength hop hlen, ?step⟩
  intro s s' a w ht hno
  cases hd : decode s.config w with
  | ok i => exact absurd hd (hno i)
  | error e => exact ⟨_, step_of_takeNext_undecoded ht hd, refusalOf_cases e⟩

/-- Settles O45: each port tests the unit, and of unit RB the producer's is RB.PUT alone. -/
theorem operationsOnTheWrongPortAreRefused : Obligations.OperationsOnTheWrongPortAreRefused := by
  refine ⟨fun i => ⟨?event, ?application, ?put, ?others⟩, fun _ _ _ _ _ => step_of_takeNext_wrongPort⟩
  case event | application => exact beq_iff_eq
  case put => exact beq_iff_eq.trans opcodeOf_eq_zero_iff
  case others =>
    rw [portOf, accepts, Bool.and_eq_true, beq_iff_eq, bne_iff_ne, Ne, opcodeOf_eq_zero_iff, not_exists]

section PresentedWords

variable {s : State} {i : Instr}

/-- The word presented is the one taken, whatever else stands on the ports, and taking it leaves the state it was put in. -/
theorem takeNext_present (s : State) (a : Agent) (w : OpWord) : takeNext (s.present a w) = some (a, w, s) := by
  obtain ⟨_, _, _, _, _, _, _, _, _, ps, qs, _, _, _, _⟩ := s
  cases a with
  | producer => cases qs <;> rfl
  | consumer => cases ps <;> rfl

theorem present_frame (s : State) (a : Agent) (w : OpWord) :
    (s.present a w).config = s.config ∧ (s.present a w).deployment = s.deployment := by
  cases a <;> exact ⟨rfl, rfl⟩

theorem deployedFor_config (s : State) (op : Opcode) : (s.deployedFor op).config = s.config := by
  unfold State.deployedFor
  split <;> rfl

/-- In the use an operation puts the block to, the port of its issuer accepts it. -/
theorem accepts_deployedFor (s : State) (i : Instr) :
    accepts (portOf (s.deployedFor (opcodeOf i)).deployment (issuerOf (opcodeOf i))) (opcodeOf i) = true := by
  rcases unitOf_opcodeOf i with h | h | h
  · by_cases h0 : opcodeOf i = 0#8
    · simp [State.deployedFor, issuerOf, portOf, accepts, unitOf, h0]
    · simp [State.deployedFor, issuerOf, portOf, accepts, h, h0]
  · have h0 : opcodeOf i ≠ 0#8 := fun h0 => absurd h (by rw [h0]; decide)
    simp [State.deployedFor, issuerOf, portOf, accepts, h, h0]
  · simp [State.deployedFor, issuerOf, portOf, accepts, h]

end PresentedWords

/-- Settles O54: the word presented is the one taken, in the use whose port accepts it. -/
theorem presentedTableWordRunsNext : Obligations.PresentedTableWordRunsNext := by
  intro s nbits w i hd
  have hop : (tableWord nbits w).op = opcodeOf i := (decode_opcode hd).symm
  have hrun : step (s.withFetchWord nbits w) = exec i (s.deployedFor (opcodeOf i)) := by
    rw [State.withFetchWord, hop]
    obtain ⟨hconfig, hdeployment⟩ := present_frame (s.deployedFor (opcodeOf i)) (issuerOf (opcodeOf i)) (tableWord nbits w)
    apply step_of_takeNext_accepted (takeNext_present _ _ _)
    · rw [hconfig, deployedFor_config, hd]
    · rw [hdeployment, hop, accepts_deployedFor]
  simpa only [State.deployedFor, beq_iff_eq] using hrun

end Sys2Proof.Machine

/-! PROOFS. The statements of 40_ring_buffer_mutators.md: put, get and clear register by register, what no step does to the
counters and the high-water mark, and the counts and the frames of a whole run. -/

namespace Sys2Proof.Machine

section IndexAdvance

variable {c : Config} {rb : RingBuffer} {p : Nat}

theorem RingBuffer.inc_of_lt_last (h : p < rb.cap - 1) : rb.inc p = p + 1 := Nat.mod_eq_of_lt (by omega)

/-- The index after the last slot's is 0, in an array of any size, also of one slot. -/
theorem RingBuffer.inc_of_last (hcap : 1 ≤ rb.cap) (h : p = rb.cap - 1) : rb.inc p = 0 := by
  rw [RingBuffer.inc, h, Nat.sub_add_cancel hcap, Nat.mod_self]

theorem RingBuffer.Inv.inc_lt (h : RingBuffer.Inv c rb) (p : Nat) : rb.inc p < rb.cap := Nat.mod_lt _ h.cap_pos

/-- A get that takes a frame advances the tail (R145). -/
theorem RingBuffer.get_tail (h : rb.occupancy ≠ 0) : (rb.get c).tail = rb.inc rb.tail := by
  rw [RingBuffer.get, if_neg h]
  rfl

end IndexAdvance

/-- Settles O3: the remainder, below the last slot and at it, and the indices put and get advance. -/
theorem indexAdvanceWrapsAtCapacity : Obligations.IndexAdvanceWrapsAtCapacity := by
  intro c rb h
  have hcap := h.cap_pos
  refine ⟨fun p hp => ?index, fun h1 => ?one, fun f => ⟨rb.put_head f, rb.put_tail f⟩, RingBuffer.get_tail⟩
  case index =>
    have hfits : p + 1 ≤ c.capMax := Nat.le_trans hp h.cap_le
    exact ⟨rfl, RingBuffer.inc_of_lt_last, RingBuffer.inc_of_last hcap, h.inc_lt p, hp, h.cap_le,
      Nat.lt_of_le_of_lt hfits (lt_two_pow_bitLength c.capMax)⟩
  case one => exact RingBuffer.inc_of_last hcap (by omega)

/-- Settles O4: a step keeps the ring buffer or changes it by one of the changes, each of which counts by one at most. -/
theorem cumulativeCountersOnlyIncrement : Obligations.CumulativeCountersOnlyIncrement := by
  intro s t h hs
  obtain ⟨-, -, hsent, hreceived, -, hchange⟩ := step_frame h hs
  refine ⟨fun _ => rfl, hsent, hreceived, fun rb hrb => ?_⟩
  obtain ⟨rb', hrb', rfl | ⟨i, hc⟩⟩ := hchange rb hrb
  · exact ⟨rb', hrb', .inl rfl, .inl rfl, .inl rfl⟩
  · obtain ⟨hputs, hgets, hoverflows, -⟩ := hc.counters
    exact ⟨rb', hrb', hputs, hgets, hoverflows⟩

/-- Settles O5: put takes the maximum, and every change of the ring buffer keeps the mark or raises it. -/
theorem highWaterMarkNeverFalls : Obligations.HighWaterMarkNeverFalls := by
  refine ⟨fun c rb f h => ⟨rfl, h.hwm_le, (h.put f).size_le⟩, fun s t rb h hs hrb => ?_⟩
  have hI := h.rb_inv rb hrb
  obtain ⟨-, -, -, -, -, hchange⟩ := step_frame h hs
  obtain ⟨rb', hrb', rfl | ⟨i, hc⟩⟩ := hchange rb hrb
  · exact ⟨rb', hrb', Nat.le_refl _, hI.hwm_le⟩
  · obtain ⟨-, -, -, hhwm⟩ := hc.counters
    exact ⟨rb', hrb', hhwm, (hc.inv hI).hwm_le⟩

section Mutators

variable {c : Config} {rb : RingBuffer}

/-- put register by register: the flag and the size it computes from the advanced indices, in terms of the size before. -/
theorem RingBuffer.Inv.put_eq (h : RingBuffer.Inv c rb) (f : Frame) :
    rb.put c f =
      { rb with
        slots := Memory.write rb.slots rb.head f
        head := (rb.head + 1) % rb.cap
        tail := if rb.full then (rb.tail + 1) % rb.cap else rb.tail
        full := decide (rb.cap ≤ rb.size + 1)
        size := if rb.full then rb.cap else rb.size + 1
        hwm := max rb.hwm (if rb.full then rb.cap else rb.size + 1)
        puts := (rb.puts + 1) % 2 ^ c.cntW
        overflows := if rb.full then (rb.overflows + 1) % 2 ^ c.cntW else rb.overflows } := by
  rw [← h.put_full f, ← h.put_size f]
  rfl

theorem word_defaultFrame : (Result.frame defaultFrame false).word = 0 := by decide

theorem RingBuffer.clear_isAvailable (rb : RingBuffer) : rb.clear.isAvailable = false := rfl

theorem RingBuffer.clear_isEmpty (rb : RingBuffer) : rb.clear.isEmpty = true := rfl

theorem RingBuffer.clear_occupancy (rb : RingBuffer) : rb.clear.occupancy = 0 := rfl

end Mutators

/-- Settles O6: put register by register, and what the one slot write leaves. -/
theorem rbPutStoresAtHeadAndAdvances : Obligations.RbPutStoresAtHeadAndAdvances := by
  intro s rb f hrb h
  refine ⟨Memory.write rb.slots rb.head f, ?next, Memory.wf_write _ _ h.slots_wf, Memory.read_write_self _ _ _,
    fun i hi => Memory.read_write_ne _ _ hi⟩
  case next =>
    rw [exec_rbPut f hrb, h.put_eq f]
    rfl

/-- Settles O7: the slot at the tail has been written, and the get takes its frame. -/
theorem rbGetTakesFrameAtTail : Obligations.RbGetTakesFrameAtTail := by
  intro s rb hrb h hp
  obtain ⟨f, hread, hframe⟩ := h.tail_written hp
  obtain ⟨hget, hres⟩ := h.get_nonempty hp
  refine ⟨f, hread, ?next⟩
  case next =>
    rw [exec_rbGet hrb, hget, hres, hframe]
    rfl

/-- Settles O8: the empty get drives the default frame, whose result word is 0. -/
theorem rbGetOnEmptyChangesNothing : Obligations.RbGetOnEmptyChangesNothing := by
  intro s rb hrb h hz
  have hget := h.exec_rbGet_empty hrb hz
  refine ⟨hget, fun t ht r hr => ?word⟩
  case word =>
    cases hget.symm.trans ht
    cases hr
    exact word_defaultFrame

/-- Settles O9: clear is four register writes, after which head and tail meet with the flag cleared. -/
theorem rbClearEmptiesAndKeepsCounters : Obligations.RbClearEmptiesAndKeepsCounters := by
  intro s rb hrb
  have hclear := exec_rbClear hrb
  refine ⟨hclear, fun t rb' ht hrb' => ?empty⟩
  case empty =>
    cases hclear.symm.trans ht
    cases hrb'
    exact ⟨rb.clear_isAvailable, rb.clear_isEmpty, rb.clear_occupancy, rb.contents_clear⟩

section Runs

variable {c : Config} {i : Instr} {s : State} {rb : RingBuffer} {t : Tally}

/-- The ring buffer an RB operation leaves; `exec_rbUnit` says that it is what exec leaves. -/
def RingBuffer.afterOp (c : Config) (rb : RingBuffer) : Instr → RingBuffer
  | .rbPut f => rb.put c f
  | .rbGet => rb.get c
  | .rbClear => rb.clear
  | .rbSize | .rbFreeSlots => rb.recompute
  | _ => rb

/-- A query is an operation that writes back the ring buffer it finds. -/
theorem answerQuery_withRb (r : RingBuffer → Result) (hrb : s.rb = some rb) :
    answerQuery s r = .next ((s.withRb rb).report (some (r rb))) := by
  rw [State.withRb_self hrb, answerQuery_some r hrb]

/-- Every RB operation, where there is a ring buffer, answers a next state with the ring buffer and the result port alone
changed. -/
theorem exec_rbUnit (hi : unitOf (opcodeOf i) = 0) (hrb : s.rb = some rb) :
    ∃ r, exec i s = .next ((s.withRb (rb.afterOp s.config i)).report r) := by
  cases i with
  | rbPut f => exact ⟨_, exec_rbPut f hrb⟩
  | rbGet => exact ⟨_, exec_rbGet hrb⟩
  | rbClear => exact ⟨_, exec_rbClear hrb⟩
  | rbSize => exact ⟨_, exec_rbSize hrb⟩
  | rbFreeSlots => exact ⟨_, exec_rbFreeSlots hrb⟩
  | rbAvailable | rbFull | rbEmpty | rbPuts | rbGets | rbOverflows | rbHwm =>
    exact ⟨_, answerQuery_withRb _ hrb⟩
  | _ => simp [opcodeOf, unitOf] at hi

/-- The induction over a run: what every one of its operations keeps of the ring buffer and the counts holds at its end, and
the run completes. -/
theorem runTally_invariant {P : RingBuffer → Tally → Prop} {ops : List Instr}
    (hops : ∀ i ∈ ops, unitOf (opcodeOf i) = 0)
    (hstep : ∀ i ∈ ops, ∀ rb t, P rb t → P (rb.afterOp c i) (t.count i rb (rb.afterOp c i)))
    (hc : s.config = c) (hrb : s.rb = some rb) (hP : P rb t) :
    ∃ s' rb' t', runTally ops s t = some (s', t') ∧ s'.rb = some rb' ∧ P rb' t' := by
  induction ops generalizing s rb t with
  | nil => exact ⟨s, rb, t, rfl, hrb, hP⟩
  | cons i is ih =>
    obtain ⟨hi, his⟩ := List.forall_mem_cons.1 hops
    obtain ⟨hstepi, hsteps⟩ := List.forall_mem_cons.1 hstep
    obtain ⟨r, hexec⟩ := exec_rbUnit hi hrb
    rw [hc] at hexec
    obtain ⟨s', rb', t', hrun, hend⟩ := ih his hsteps (s := (s.withRb (rb.afterOp c i)).report r) hc rfl (hstepi rb t hP)
    refine ⟨s', rb', t', ?_, hend⟩
    simpa only [runTally, hrb, hexec, State.report_rb, State.withRb_rb] using hrun

/-- The counting law and the order of the frames (R147, R148), as an invariant: the registers hold the true counts, and the
frames held are the last ones put. -/
structure RingBuffer.Records (c : Config) (rb : RingBuffer) (t : Tally) : Prop where
  inv              : RingBuffer.Inv c rb
  puts_eq          : rb.puts = t.puts % 2 ^ c.cntW
  gets_eq          : rb.gets = t.gets % 2 ^ c.cntW
  overflows_eq     : rb.overflows = t.overflows % 2 ^ c.cntW
  hwm_eq           : rb.hwm = t.largestSize
  /-- Every frame put since the last clear is still held, was taken, or was discarded. -/
  size_balance     : rb.size + t.getsSinceClear + t.overflowsSinceClear = t.putsSinceClear
  contents_suffix  : rb.contents <:+ t.history

theorem cinc_mod (c : Config) (n : Nat) : cinc c (n % 2 ^ c.cntW) = (n + 1) % 2 ^ c.cntW := Nat.mod_add_mod _ _ _

/-- put holds one frame more, less the one it discards when full. -/
theorem RingBuffer.Inv.put_size_add (h : RingBuffer.Inv c rb) (f : Frame) :
    (rb.put c f).size + rb.full.toNat = rb.size + 1 := by
  rw [h.put_size f]
  cases hf : rb.full with
  | true => simp [h.full_iff.1 hf]
  | false => simp

/-- A register that holds a number of overflows holds it after a put, one more where the buffer was full. -/
theorem RingBuffer.put_overflows_mod {n : Nat} (hn : rb.overflows = n % 2 ^ c.cntW) (f : Frame) :
    (rb.put c f).overflows = (n + rb.full.toNat) % 2 ^ c.cntW := by
  have hput : (rb.put c f).overflows = if rb.full then cinc c rb.overflows else rb.overflows := rfl
  rw [hput, hn, cinc_mod]
  cases rb.full <;> rfl

/-- The queue after a put ends as the frames put do. -/
theorem queuePut_suffix {q l : List Frame} (h : q <:+ l) (cap : Nat) (f : Frame) : queuePut cap q f <:+ l ++ [f] := by
  unfold queuePut
  split
  · exact List.suffix_append_self_iff.2 ((q.drop_suffix 1).trans h)
  · exact List.suffix_append_self_iff.2 h

theorem RingBuffer.Records.put (h : rb.Records c t) (f : Frame) :
    (rb.put c f).Records c (t.count (.rbPut f) rb (rb.put c f)) where
  inv := h.inv.put f
  puts_eq := show cinc c rb.puts = (t.puts + 1) % 2 ^ c.cntW by rw [h.puts_eq, cinc_mod]
  gets_eq := h.gets_eq
  overflows_eq := RingBuffer.put_overflows_mod h.overflows_eq f
  hwm_eq := congrArg (max · (rb.put c f).size) h.hwm_eq
  size_balance := by
    have hsize := h.inv.put_size_add f
    have hbalance := h.size_balance
    show (rb.put c f).size + t.getsSinceClear + (t.overflowsSinceClear + rb.full.toNat) = t.putsSinceClear + 1
    omega
  contents_suffix := by
    rw [h.inv.contents_put f]
    exact queuePut_suffix h.contents_suffix _ f

theorem RingBuffer.Records.get (h : rb.Records c t) : (rb.get c).Records c (t.count .rbGet rb (rb.get c)) := by
  have havailable := h.inv.available_iff
  rcases Nat.eq_zero_or_pos rb.size with hz | hp
  · have hno : rb.isAvailable = false := by simpa [hz] using havailable
    have hcount : t.count .rbGet rb (rb.get c) = t := by simp [Tally.count, hno]
    rw [hcount, (h.inv.get_empty hz).1]
    exact h
  · have hyes := havailable.2 hp
    have hcount : t.count .rbGet rb (rb.get c) = { t with gets := t.gets + 1, getsSinceClear := t.getsSinceClear + 1 } := by
      simp [Tally.count, hyes]
    obtain ⟨-, -, hputs, hoverflows, hhwm, -⟩ := rb.get_frame c
    obtain ⟨hget, -⟩ := h.inv.get_nonempty hp
    rw [hcount]
    refine
      { inv := h.inv.get, puts_eq := hputs.trans h.puts_eq, gets_eq := ?_, overflows_eq := hoverflows.trans h.overflows_eq,
        hwm_eq := hhwm.trans h.hwm_eq, size_balance := ?_, contents_suffix := ?_ }
    · rw [hget, h.gets_eq]
      exact Nat.mod_add_mod _ _ _
    · have hbalance := h.size_balance
      rw [hget]
      show rb.size - 1 + (t.getsSinceClear + 1) + t.overflowsSinceClear = t.putsSinceClear
      omega
    · refine List.IsSuffix.trans ?_ h.contents_suffix
      rw [h.inv.contents_get hp]
      exact List.suffix_cons _ _

theorem RingBuffer.Records.clear (h : rb.Records c t) : rb.clear.Records c (t.count .rbClear rb rb.clear) :=
  { h with
    inv := h.inv.clear
    size_balance := rfl
    contents_suffix := List.nil_suffix }

/-- Every operation keeps the counting law: put, get and clear by the three lemmas above, and the others change nothing. -/
theorem RingBuffer.Records.afterOp (h : rb.Records c t) (i : Instr) :
    (rb.afterOp c i).Records c (t.count i rb (rb.afterOp c i)) := by
  cases i with
  | rbPut f => exact h.put f
  | rbGet => exact h.get
  | rbClear => exact h.clear
  | rbSize | rbFreeSlots =>
    rw [RingBuffer.afterOp, h.inv.recompute]
    exact h
  | _ => exact h

theorem RingBuffer.construct_records {cap : Nat} (h1 : 1 ≤ cap) (h2 : cap ≤ c.capMax) :
    (RingBuffer.construct cap).Records c {} where
  inv := RingBuffer.construct_inv h1 h2
  puts_eq := (Nat.zero_mod _).symm
  gets_eq := (Nat.zero_mod _).symm
  overflows_eq := (Nat.zero_mod _).symm
  hwm_eq := rfl
  size_balance := rfl
  contents_suffix := List.nil_suffix

/-- The counts since the last clear are those of the whole run. -/
structure Tally.NeverCleared (t : Tally) : Prop where
  puts_eq      : t.putsSinceClear = t.puts
  gets_eq      : t.getsSinceClear = t.gets
  overflows_eq : t.overflowsSinceClear = t.overflows

theorem Tally.NeverCleared.count (h : t.NeverCleared) (hi : i ≠ .rbClear) (rb rb' : RingBuffer) :
    (t.count i rb rb').NeverCleared := by
  cases i with
  | rbPut f => exact ⟨congrArg (· + 1) h.puts_eq, h.gets_eq, congrArg (· + rb.full.toNat) h.overflows_eq⟩
  | rbGet => exact ⟨h.puts_eq, congrArg (· + rb.isAvailable.toNat) h.gets_eq, h.overflows_eq⟩
  | rbClear => exact absurd rfl hi
  | _ => exact h

/-- Every run of RB operations from reset completes, with the counting law at its end. -/
theorem runTally_records {cap : Nat} {ops : List Instr} (h1 : 1 ≤ cap) (h2 : cap ≤ c.capMax)
    (hops : ∀ i ∈ ops, unitOf (opcodeOf i) = 0) :
    ∃ s rb t, runTally ops (State.launchAlone c cap) {} = some (s, t) ∧ s.rb = some rb ∧ rb.Records c t ∧
      (.rbClear ∉ ops → t.NeverCleared) :=
  runTally_invariant (P := fun rb t => rb.Records c t ∧ (.rbClear ∉ ops → t.NeverCleared)) hops
    (fun i hi rb _ ⟨hrec, hnever⟩ =>
      ⟨hrec.afterOp i, fun hno => (hnever hno).count (fun e => hno (e ▸ hi)) rb _⟩)
    rfl rfl ⟨RingBuffer.construct_records h1 h2, fun _ => ⟨rfl, rfl, rfl⟩⟩

end Runs

/-- Settles O11: the counting law is an invariant of every run, and without a clear the two kinds of counts agree. -/
theorem registersHoldTrueCountsOfRun : Obligations.RegistersHoldTrueCountsOfRun := by
  intro c cap ops h1 h2 hops
  obtain ⟨s, rb, t, hrun, hrb, h, hnever⟩ := runTally_records h1 h2 hops
  have hbalance := h.size_balance
  refine ⟨s, rb, t, hrun, hrb, fun hno => ?whole, ?sinceClear, h.puts_eq, h.gets_eq, h.overflows_eq, h.hwm_eq⟩
  case whole =>
    obtain ⟨hputs, hgets, hoverflows⟩ := hnever hno
    omega
  case sinceClear => omega

section PutsInARow

variable {c : Config} {s : State} {rb : RingBuffer}

/-- A put into the queue first, or all frames together: the same last `cap` frames stay. -/
theorem rtake_queuePut_append {cap : Nat} {q : List Frame} (hcap : 1 ≤ cap) (f : Frame) (fs : List Frame) :
    (queuePut cap q f ++ fs).rtake cap = (q ++ f :: fs).rtake cap := by
  unfold queuePut
  split
  next hfull =>
    have hdrop : q.drop 1 ++ [f] ++ fs = (q ++ f :: fs).drop 1 := by
      rw [List.append_assoc, List.singleton_append, List.drop_append_of_le_length (by omega)]
    rw [hdrop, List.rtake, List.rtake, List.drop_drop, List.length_drop, List.length_append, List.length_cons]
    congr 1
    omega
  next => rw [List.append_assoc, List.singleton_append]

/-- Puts one after the other: the last CAP frames stay, and each frame beyond them is an overflow (R148). -/
theorem runAll_rbPut (fs : List Frame) (hrb : s.rb = some rb) (h : RingBuffer.Inv s.config rb) :
    ∃ s' rb', runAll (fs.map .rbPut) s = some s' ∧ s'.rb = some rb' ∧ RingBuffer.Inv s.config rb' ∧
      rb'.contents = (rb.contents ++ fs).rtake rb.cap ∧
      rb'.overflows = (rb.overflows + (rb.size + fs.length - rb.cap)) % 2 ^ s.config.cntW := by
  have hle := h.size_le
  induction fs generalizing s rb with
  | nil =>
    refine ⟨s, rb, rfl, hrb, h, ?_, ?_⟩
    · rw [List.append_nil, List.rtake, rb.contents_length, Nat.sub_eq_zero_of_le hle, List.drop_zero]
    · rw [List.length_nil, Nat.add_zero, Nat.sub_eq_zero_of_le hle, Nat.add_zero, Nat.mod_eq_of_lt h.overflows_lt]
  | cons f fs ih =>
    have hI := h.put f
    obtain ⟨s', rb', hrun, hrb', hinv, hcontents, hoverflows⟩ :=
      ih (s := (s.withRb (rb.put s.config f)).report (some (.bit rb.full))) rfl hI hI.size_le
    refine ⟨s', rb', ?_, hrb', hinv, ?_, ?_⟩
    · simpa only [List.map_cons, runAll, exec_rbPut f hrb] using hrun
    · rw [hcontents, RingBuffer.put_cap, h.contents_put f, rtake_queuePut_append h.cap_pos]
    · have hsize := h.put_size_add f
      have hput := RingBuffer.put_overflows_mod (Nat.mod_eq_of_lt h.overflows_lt).symm f
      rw [hoverflows, State.report_config, State.withRb_config, RingBuffer.put_cap, hput, Nat.mod_add_mod, List.length_cons]
      congr 1
      have hfull : rb.full.toNat = 1 → rb.size = rb.cap := fun e => h.full_iff.1 (Bool.toNat_eq_one.1 e)
      have := rb.full.toNat_lt
      omega

end PutsInARow

/-- Settles O12: the frames held are the last ones put in every run; for puts into an empty buffer the last CAP of them. -/
theorem bufferHoldsTheLastFramesPut : Obligations.BufferHoldsTheLastFramesPut := by
  refine ⟨fun c cap ops h1 h2 hops => ?run, fun s rb fs hrb h hz => ?puts⟩
  case run =>
    obtain ⟨s, rb, t, hrun, hrb, h, -⟩ := runTally_records h1 h2 hops
    have hsuffix := h.contents_suffix
    refine ⟨s, rb, t, hrun, hrb, ?_, ?_⟩
    · rw [← rb.contents_length]
      exact hsuffix.length_le
    · rw [← rb.contents_length]
      exact List.suffix_iff_eq_drop.1 hsuffix
  case puts =>
    obtain ⟨s', rb', hrun, hrb', hinv, hcontents, hoverflows⟩ := runAll_rbPut fs hrb h
    rw [rb.contents_eq_nil_iff.2 hz, List.nil_append, List.rtake] at hcontents
    rw [hz, Nat.zero_add] at hoverflows
    refine ⟨s', rb', hrun, hrb', fun hfit => ?fit, fun k hk => ?overflow⟩
    case fit =>
      rw [Nat.sub_eq_zero_of_le hfit] at hcontents hoverflows
      exact ⟨hcontents, hoverflows.trans (Nat.mod_eq_of_lt h.overflows_lt)⟩
    case overflow =>
      rw [hk, Nat.add_sub_cancel_left] at hcontents hoverflows
      refine ⟨hcontents, hoverflows, fun f hf => ⟨_, exec_rbGet hrb', ?_⟩⟩
      obtain ⟨hlt, rfl⟩ := List.getElem?_eq_some_iff.1 hf
      obtain ⟨hres, -⟩ := hinv.get_cons (hcontents.trans (List.drop_eq_getElem_cons hlt))
      exact congrArg some hres

end Sys2Proof.Machine

/-! PROOFS. The statements of 41_ring_buffer_queries.md: what each query answers, and what can make an answer stale. -/

namespace Sys2Proof.Machine

section QueryAnswers

variable {c : Config} {s : State} {rb : RingBuffer}

theorem RingBuffer.Inv.isAvailable_eq_size (h : RingBuffer.Inv c rb) : rb.isAvailable = decide (0 < rb.size) := by
  rw [Bool.eq_iff_iff, decide_eq_true_iff]
  exact h.available_iff

theorem RingBuffer.Inv.isAvailable_eq_occupancy (h : RingBuffer.Inv c rb) : rb.isAvailable = decide (rb.occupancy ≠ 0) := by
  rw [Bool.eq_iff_iff, decide_eq_true_iff]
  exact h.available_iff_occupancy

theorem RingBuffer.Inv.full_eq_size (h : RingBuffer.Inv c rb) : rb.full = decide (rb.size = rb.cap) := by
  rw [Bool.eq_iff_iff, decide_eq_true_iff]
  exact h.full_iff

theorem RingBuffer.Inv.isEmpty_eq_size (h : RingBuffer.Inv c rb) : rb.isEmpty = decide (rb.size = 0) := by
  rw [rb.isEmpty_eq, h.isAvailable_eq_size, ← decide_not]
  exact decide_eq_decide.2 (by omega)

/-- RB.SIZE writes the size cache with the value it holds, so only the result port changes (R161). -/
theorem RingBuffer.Inv.exec_rbSize (h : RingBuffer.Inv s.config rb) (hrb : s.rb = some rb) :
    exec .rbSize s = .next (s.report (some (.size rb.size))) := by
  rw [Machine.exec_rbSize hrb, h.recompute, State.withRb_self hrb, h.size_eq]

/-- RB.FREE_SLOTS calls size(), which changes nothing (R162). -/
theorem RingBuffer.Inv.exec_rbFreeSlots (h : RingBuffer.Inv s.config rb) (hrb : s.rb = some rb) :
    exec .rbFreeSlots s = .next (s.report (some (.size (rb.cap - rb.size)))) := by
  rw [Machine.exec_rbFreeSlots hrb, h.recompute, State.withRb_self hrb, h.size_eq]

/-- The size register holds the occupancy formula of R28. -/
theorem RingBuffer.Inv.size_eq_emod (h : RingBuffer.Inv c rb) :
    (rb.size : Int) = if rb.full then (rb.cap : Int) else ((rb.head : Int) - rb.tail) % rb.cap := by
  obtain ⟨hmod, -⟩ := occupancyIsModularDifference rb.cap rb.head rb.tail rb.full h.head_lt h.tail_lt
  rw [h.size_eq]
  exact hmod

end QueryAnswers

/-- Settles O13: the three predicates, each rewritten as a comparison of the size. -/
theorem rbPredicateQueriesAnswerFromSize : Obligations.RbPredicateQueriesAnswerFromSize := by
  intro s rb hrb h
  rw [← h.isAvailable_eq_size, ← h.full_eq_size, ← h.isEmpty_eq_size]
  exact ⟨exec_rbAvailable hrb, exec_rbFull hrb, exec_rbEmpty hrb⟩

/-- Settles O14: the two answers are the size and what is left of the capacity. -/
theorem rbSizeAndFreeSlotsSumToCapacity : Obligations.RbSizeAndFreeSlotsSumToCapacity := fun _ rb hrb h =>
  ⟨rb.size, rb.cap - rb.size, Nat.add_sub_of_le h.size_le, rfl, h.size_eq_emod, h.exec_rbSize hrb, h.exec_rbFreeSlots hrb⟩

/-- Settles O15: each of the four is a query of its register. -/
theorem rbCounterQueriesReadTheirRegister : Obligations.RbCounterQueriesReadTheirRegister := fun _ _ hrb =>
  ⟨exec_rbPuts hrb, exec_rbGets hrb, exec_rbOverflows hrb, exec_rbHwm hrb⟩

section Staleness

variable {c : Config} {s t : State} {i : Instr} {rb rb' : RingBuffer}

/-- put never leaves fewer frames than it found: the one it discards makes room for its own. -/
theorem RingBuffer.Inv.size_le_put (h : RingBuffer.Inv c rb) (f : Frame) : rb.size ≤ (rb.put c f).size := by
  have hsize := h.put_size_add f
  have hbit := rb.full.toNat_lt
  omega

/-- Of the changes, get and clear alone take frames. -/
theorem RingBuffer.Change.taken_or_size_le (hc : RingBuffer.Change c i rb rb') (h : RingBuffer.Inv c rb) :
    (i = .rbGet ∨ i = .faGetNextMessage ∨ i = .rbClear) ∨ rb.size ≤ rb'.size := by
  cases hc with
  | put f => exact .inr (h.size_le_put f)
  | get hget => exact .inl (hget.imp_right .inl)
  | clear hclear => exact .inl (.inr (.inr hclear))
  | recompute => exact .inr (by rw [h.recompute])

/-- Without FA.BEGIN, which constructs anew, an operation keeps the capacity and the invariants, and does not lower the
high-water mark. -/
theorem Effect.ringBuffer_kept (he : Effect i s t) (hi : ¬ ∃ p b, i = .faBegin p b) (hrb : s.rb = some rb)
    (hrb' : t.rb = some rb') (h : RingBuffer.Inv s.config rb) :
    RingBuffer.Inv s.config rb' ∧ rb'.cap = rb.cap ∧ rb.hwm ≤ rb'.hwm := by
  rcases he.ringBuffer_eq_or_change hi hrb hrb' with rfl | hc
  · exact ⟨h, rfl, Nat.le_refl _⟩
  · obtain ⟨-, -, -, hhwm⟩ := hc.counters
    exact ⟨hc.inv h, hc.cap_eq, hhwm⟩

/-- An operation is the consumer's get or clear, constructs the buffer anew, or leaves as many frames as it found in a buffer
of the same capacity: what makes a true answer of a query stale (R160, R163). -/
theorem Effect.taken_or_kept (he : Effect i s t) (hrb : s.rb = some rb) (hrb' : t.rb = some rb')
    (h : RingBuffer.Inv s.config rb) :
    (i = .rbGet ∨ i = .faGetNextMessage ∨ i = .rbClear ∨ ∃ p b, i = .faBegin p b) ∨
      RingBuffer.Inv s.config rb' ∧ rb'.cap = rb.cap ∧ rb.size ≤ rb'.size := by
  by_cases hbegin : ∃ p b, i = .faBegin p b
  · exact .inl (.inr (.inr (.inr hbegin)))
  · rcases he.ringBuffer_eq_or_change hbegin hrb hrb' with rfl | hc
    · exact .inr ⟨h, rfl, Nat.le_refl _⟩
    · rcases hc.taken_or_size_le h with htaken | hle
      · exact .inl (htaken.imp_right (Or.imp_right .inl))
      · exact .inr ⟨hc.inv h, hc.cap_eq, hle⟩

theorem RingBuffer.construct_isAvailable (cap : Nat) : (RingBuffer.construct cap).isAvailable = false := rfl

/-- With one slot, a frame present is CAP frames present (R160). -/
theorem RingBuffer.Inv.isAvailable_eq_full (h : RingBuffer.Inv c rb) (hcap : rb.cap = 1) : rb.isAvailable = rb.full := by
  have hle := h.size_le
  rw [h.isAvailable_eq_size, h.full_eq_size]
  exact decide_eq_decide.2 (by omega)

/-- A put into a buffer that is not full fills it exactly where one slot was free (R163). -/
theorem RingBuffer.Inv.put_full_iff (h : RingBuffer.Inv c rb) (hfull : rb.full = false) (f : Frame) :
    (rb.put c f).full = true ↔ rb.size + 1 = rb.cap := by
  have hle := h.size_le
  have hne : rb.size ≠ rb.cap := by simpa [hfull] using h.full_iff
  rw [h.put_full f, decide_eq_true_iff]
  omega

/-- A full buffer has its high-water mark at the capacity: the mark lies between the size and the capacity. -/
theorem RingBuffer.Inv.hwm_eq_cap (h : RingBuffer.Inv c rb) (hfull : rb.full = true) : rb.hwm = rb.cap :=
  Nat.le_antisymm h.hwm_le (h.full_iff.1 hfull ▸ h.size_le_hwm)

/-- The high-water mark fits SIZE_W bits (00_scope.md R7). -/
theorem RingBuffer.Inv.hwm_lt (h : RingBuffer.Inv c rb) : rb.hwm < 2 ^ c.sizeW :=
  Nat.lt_of_le_of_lt (h.hwm_le.trans h.cap_le) (lt_two_pow_bitLength c.capMax)

end Staleness

/-- Settles O16: the answer tells a size above 0, which an operation that takes no frame leaves above 0. -/
theorem rbAvailableAnswerAndItsStaleness : Obligations.RbAvailableAnswerAndItsStaleness := by
  intro s rb hrb h
  refine ⟨rfl, decode_encode (i := .rbAvailable) rfl, exec_rbAvailable hrb, h.isAvailable_eq_occupancy,
    rb.clear_isAvailable, RingBuffer.construct_isAvailable _,
    fun hfull => ⟨h.full_meets hfull, rb.isAvailable_iff.2 (.inl hfull)⟩, h.isAvailable_eq_full,
    fun i t rb' hexec hrb' hyes hno => ?stale⟩
  case stale =>
    rcases (exec_effect hexec).taken_or_kept hrb hrb' h with htaken | ⟨hI, -, hle⟩
    · exact htaken
    · have hpos : 0 < rb'.size := Nat.lt_of_lt_of_le (h.available_iff.1 hyes) hle
      exact absurd (hI.available_iff.2 hpos) (Bool.eq_false_iff.1 hno)

/-- Settles O17: the answer tells a size at the capacity, where an operation that takes no frame leaves it; a put computes the
flag anew from the size. -/
theorem rbFullAnswerAndItsStaleness : Obligations.RbFullAnswerAndItsStaleness := by
  intro s rb hrb h
  refine ⟨rfl, decode_encode (i := .rbFull) rfl, exec_rbFull hrb, rb.contents_length ▸ h.full_iff,
    fun i t rb' hexec hrb' hyes hno => ?staleTrue, fun f t rb' hexec hrb' hno => ?staleFalse⟩
  case staleTrue =>
    rcases (exec_effect hexec).taken_or_kept hrb hrb' h with htaken | ⟨hI, hcap, hle⟩
    · exact htaken
    · have hsize := h.full_iff.1 hyes
      have hcapacity : rb'.size = rb'.cap := Nat.le_antisymm hI.size_le (by omega)
      exact absurd (hI.full_iff.2 hcapacity) (Bool.eq_false_iff.1 hno)
  case staleFalse =>
    cases (exec_rbPut f hrb).symm.trans hexec
    cases hrb'
    exact h.put_full_iff hno f

/-- Settles O18: no change lowers the mark, and the invariants, which every change keeps, hold it at most at the capacity. -/
theorem rbHwmAnswerAndItsBounds : Obligations.RbHwmAnswerAndItsBounds := by
  intro s rb hrb h
  refine ⟨rfl, decode_encode (i := .rbHwm) rfl, exec_rbHwm hrb, h.hwm_lt, fun i t rb' hexec hrb' hi => ?bounds⟩
  case bounds =>
    obtain ⟨hI, hcap, hmono⟩ := (exec_effect hexec).ringBuffer_kept (fun ⟨p, b, e⟩ => hi p b e) hrb hrb' h
    refine ⟨hmono, hI.hwm_le, hcap, fun hmax => Nat.le_antisymm hI.hwm_le ?_⟩
    have hhwm : rb.hwm = rb.cap := hmax.elim h.hwm_eq_cap id
    rw [hcap, ← hhwm]
    exact hmono

end Sys2Proof.Machine

/-! PROOFS. The statements of 42_frame_translation.md: what the two translations and the stamping make of each field, and the
round trips. -/

namespace Sys2Proof.Machine

section ZeroFill

variable (len : PayloadLength) (d : Payload)

/-- The zero fill byte by byte: the definition's table of 42_frame_translation.md R182, R184. -/
@[simp] theorem getElem_zeroFill (i : Nat) (h : i < 8) :
    (zeroFill len d)[i] = if i < len.val then d[i] else 0 := by
  simp [zeroFill]

theorem getElem_zeroFill_of_lt (i : Nat) (h : i < 8) (hi : i < len.val) : (zeroFill len d)[i] = d[i] := by
  rw [getElem_zeroFill, if_pos hi]

theorem getElem_zeroFill_of_le (i : Nat) (h : i < 8) (hi : len.val ≤ i) : (zeroFill len d)[i] = 0 := by
  rw [getElem_zeroFill, if_neg (Nat.not_lt.2 hi)]

variable {len d} in
/-- A payload that is zero at and beyond the length is left as it is by the zero fill. -/
theorem zeroFill_eq_self (hd : ∀ (i : Nat) (_ : i < 8), len.val ≤ i → d[i] = 0) : zeroFill len d = d := by
  refine Vector.ext fun i h => ?_
  obtain hi | hi := Nat.lt_or_ge i len.val
  · exact getElem_zeroFill_of_lt len d i h hi
  · exact (getElem_zeroFill_of_le len d i h hi).trans (hd i h hi).symm

/-- The second translation of a round trip finds its bytes beyond the length already zero. -/
@[simp] theorem zeroFill_zeroFill : zeroFill len (zeroFill len d) = zeroFill len d :=
  zeroFill_eq_self (getElem_zeroFill_of_le len d)

end ZeroFill

/-- The round trip from a canonical frame zero-fills its payload and changes nothing else (42_frame_translation.md R185). -/
theorem fromNative_toNative (f : Frame) : fromNative (toNative f) = { f with data := zeroFill f.len f.data } := by
  simp [fromNative, toNative]

/-- The round trip from a native frame zero-fills its payload and changes nothing else (42_frame_translation.md R185). -/
theorem toNative_fromNative (n : NativeFrame) : toNative (fromNative n) = { n with data := zeroFill n.dlc n.data } := by
  simp [fromNative, toNative]

/-- Settles O22: either round trip is one zero fill of the payload, which changes nothing where the bytes are zero already. -/
theorem translationRoundTrips : Obligations.TranslationRoundTrips := by
  refine ⟨fun f hf => ?canonical, fun n hn => ?native,
    fun f => ⟨zeroFill f.len f.data, fromNative_toNative f, getElem_zeroFill f.len f.data⟩,
    fun n => ⟨zeroFill n.dlc n.data, toNative_fromNative n, getElem_zeroFill n.dlc n.data⟩⟩
  case canonical => rw [fromNative_toNative, zeroFill_eq_self hf]
  case native => rw [toNative_fromNative, zeroFill_eq_self hn]

/-- Settles O20: the payload is the zero fill at `dlc`, and every other field is copied. -/
theorem fromNativeCopiesAndZeroFills : Obligations.FromNativeCopiesAndZeroFills := fun n =>
  ⟨rfl, rfl, rfl, rfl, getElem_zeroFill_of_lt n.dlc n.data, getElem_zeroFill_of_le n.dlc n.data⟩

/-- Settles O21: the payload is the zero fill at `len`, and every other field is copied. -/
theorem toNativeCopiesAndZeroFills : Obligations.ToNativeCopiesAndZeroFills := fun f =>
  ⟨rfl, rfl, rfl, rfl, getElem_zeroFill_of_lt f.len f.data, getElem_zeroFill_of_le f.len f.data⟩

/-- Settles O27: each field of the stamped frame is the one StampFrame's definition gives it. -/
theorem stampingChangesIdentifierAndFlagsOnly : Obligations.StampingChangesIdentifierAndFlagsOnly :=
  fun _ _ _ _ => ⟨rfl, rfl, rfl, rfl, rfl⟩

end Sys2Proof.Machine

/-! PROOFS. The statements of 43_frame_adapter.md: what each FA operation answers, and where it is refused. -/

namespace Sys2Proof.Machine

section Lifecycle

variable {s : State} {p : Bool} {b rx tx : Nat}

/-- FA.BEGIN with a legal capacity (R200): the state before it but for the registers it writes, the drawn answer and the
output ports. -/
theorem exec_faBegin (p : Bool) (b : Nat) (ha : s.allocated = false) (h1 : 1 ≤ s.rxcap) (h2 : s.rxcap ≤ s.config.capMax) :
    exec (.faBegin p b) s = .next
      { s with
        rb := some (RingBuffer.construct s.rxcap)
        allocated := true
        started := s.answerFrom Config.startAnswer
        answers := s.afterAnswer.answers
        draws := s.afterAnswer.draws
        out := { res := some (.bit (s.answerFrom Config.startAnswer))
                 commands := [.configureBitrate Config.bitrate, .registerCallback, .start]
                 strobe := none } } := by
  have hcap : ¬ (s.rxcap = 0 ∨ s.config.capMax < s.rxcap) := by omega
  refine (if_neg (Bool.eq_false_iff.1 ha)).trans ((if_neg hcap).trans ?_)
  rw [s.afterAnswer_eq]

theorem exec_faBegin_begun (ha : s.allocated = true) : exec (.faBegin p b) s = .refused .beginTwice := if_pos ha

theorem exec_faBegin_badCapacity (ha : s.allocated = false) (hcap : s.rxcap = 0 ∨ s.config.capMax < s.rxcap) :
    exec (.faBegin p b) s = .refused .badCapacity := (if_neg (Bool.eq_false_iff.1 ha)).trans (if_pos hcap)

theorem exec_faSetNumBuffers (ha : s.allocated = false) (h1 : 1 ≤ rx) (h2 : rx ≤ s.config.capMax) :
    exec (.faSetNumBuffers rx tx) s = .next ({ s with rxcap := rx }.report none) :=
  have hcap : ¬ (rx = 0 ∨ s.config.capMax < rx) := by omega
  (if_neg (Bool.eq_false_iff.1 ha)).trans (if_neg hcap)

theorem exec_faSetNumBuffers_begun (ha : s.allocated = true) :
    exec (.faSetNumBuffers rx tx) s = .next (s.report none) := if_pos ha

theorem exec_faSetNumBuffers_badCapacity (ha : s.allocated = false) (hcap : rx = 0 ∨ s.config.capMax < rx) :
    exec (.faSetNumBuffers rx tx) s = .refused .badCapacity := (if_neg (Bool.eq_false_iff.1 ha)).trans (if_pos hcap)

end Lifecycle

/-- Settles O23: the constructed ring buffer is the one in its reset state, and the answer is the one drawn. -/
theorem faBeginConstructsAndStarts : Obligations.FaBeginConstructsAndStarts := fun s p b ha h1 h2 =>
  ⟨s.answerFrom Config.startAnswer, s.afterAnswer.answers, s.afterAnswer.draws, exec_faBegin p b ha h1 h2, s.answer_spec _⟩

section AfterBegin

variable {s : State} {rb : RingBuffer} {f : Frame}

/-- A query the adapter delegates to the ring buffer. -/
theorem afterBegin_answerQuery (ha : s.allocated = true) (hrb : s.rb = some rb) (r : RingBuffer → Result) :
    afterBegin s (answerQuery s r) = .next (s.report (some (r rb))) :=
  (afterBegin_begun _ ha).trans (answerQuery_some r hrb)

theorem exec_faAvailable (ha : s.allocated = true) (hrb : s.rb = some rb) :
    exec .faAvailable s = .next (s.report (some (.bit rb.isAvailable))) := afterBegin_answerQuery ha hrb _

theorem exec_faPuts (ha : s.allocated = true) (hrb : s.rb = some rb) :
    exec .faPuts s = .next (s.report (some (.count rb.puts))) := afterBegin_answerQuery ha hrb _

theorem exec_faGets (ha : s.allocated = true) (hrb : s.rb = some rb) :
    exec .faGets s = .next (s.report (some (.count rb.gets))) := afterBegin_answerQuery ha hrb _

theorem exec_faOverflows (ha : s.allocated = true) (hrb : s.rb = some rb) :
    exec .faOverflows s = .next (s.report (some (.count rb.overflows))) := afterBegin_answerQuery ha hrb _

theorem exec_faHwm (ha : s.allocated = true) (hrb : s.rb = some rb) :
    exec .faHwm s = .next (s.report (some (.size rb.hwm))) := afterBegin_answerQuery ha hrb _

/-- FA.GETNEXTMESSAGE on an empty buffer counts in `received` and leaves the ring buffer as it is (R202 (a)). -/
theorem RingBuffer.Inv.exec_faGetNextMessage_empty (h : RingBuffer.Inv s.config rb) (ha : s.allocated = true)
    (hrb : s.rb = some rb) (hz : rb.size = 0) :
    exec .faGetNextMessage s =
      .next ({ s with received := cinc s.config s.received }.report (some (.frame defaultFrame false))) := by
  obtain ⟨hget, hres⟩ := h.get_empty hz
  rw [exec_faGetNextMessage ha hrb, hget, hres, State.withRb_self hrb]

/-- FA.SENDMESSAGE (R203, R204): the state before it but for the counter, the drawn answer and the output ports. -/
theorem exec_faSendMessage (ha : s.allocated = true) (f : Frame) (r e v : Bool) (p : Nat) :
    exec (.faSendMessage f r e v p) s = .next
      { s with
        sent := if s.answerFrom Config.submitAnswer then cinc s.config s.sent else s.sent
        answers := s.afterAnswer.answers
        draws := s.afterAnswer.draws
        out := { res := some (.bit (s.answerFrom Config.submitAnswer))
                 commands := [.submit (toNative (stampFrame f r e (priorityOf s.config v p)))]
                 strobe := if s.config.observer
                   then some (stampFrame f r e (priorityOf s.config v p), s.answerFrom Config.submitAnswer) else none } } := by
  refine (afterBegin_begun _ ha).trans ?_
  rw [s.afterAnswer_eq]

/-- FA.SENDMESSAGENOUPDATE (R205): the state before it but for the drawn answer and the output ports. -/
theorem exec_faSendMessageNoUpdate (ha : s.allocated = true) (f : Frame) :
    exec (.faSendMessageNoUpdate f) s = .next
      { s with
        answers := s.afterAnswer.answers
        draws := s.afterAnswer.draws
        out := { res := some (.bit (s.answerFrom Config.submitAnswer))
                 commands := [.submit (toNative f)]
                 strobe := none } } := by
  refine (afterBegin_begun _ ha).trans ?_
  rw [s.afterAnswer_eq]

end AfterBegin

/-- Settles O25: under the invariants the predicate is a comparison of the size; the four statistics are their registers. -/
theorem faQueriesAnswerFromTheRingBuffer : Obligations.FaQueriesAnswerFromTheRingBuffer := by
  intro s rb ha hrb h
  rw [← h.isAvailable_eq_size]
  exact ⟨exec_faAvailable ha hrb, exec_faPuts ha hrb, exec_faGets ha hrb, exec_faOverflows ha hrb, exec_faHwm ha hrb⟩

/-- Settles O26: the get is RB.GET's in both cases, and the counter is written beside it in both. -/
theorem faGetNextMessageTakesAndAlwaysCounts : Obligations.FaGetNextMessageTakesAndAlwaysCounts := by
  intro s rb ha hrb h
  refine ⟨fun hp => ?holdsFrame, h.exec_faGetNextMessage_empty ha hrb⟩
  case holdsFrame =>
    obtain ⟨f, hread, hframe⟩ := h.tail_written hp
    obtain ⟨hget, hres⟩ := h.get_nonempty hp
    refine ⟨f, hread, ?next⟩
    case next =>
      rw [exec_faGetNextMessage ha hrb, hget, hres, hframe]
      rfl

/-- Settles O28: the frame submitted and shown is the one stamped with the priority `priorityOf` chooses. -/
theorem faSendMessageStampsSubmitsAndCounts : Obligations.FaSendMessageStampsSubmitsAndCounts := fun s f r e v p ha =>
  ⟨s.answerFrom Config.submitAnswer, s.afterAnswer.answers, s.afterAnswer.draws,
    stampFrame f r e (priorityOf s.config v p), rfl, exec_faSendMessage ha f r e v p, s.answer_spec _⟩

/-- Settles O29: the frame is submitted unstamped, and drawing the answer changes the environment's two fields only. -/
theorem faSendMessageNoUpdateSubmitsOnly : Obligations.FaSendMessageNoUpdateSubmitsOnly := fun s f ha =>
  ⟨s.answerFrom Config.submitAnswer, s.afterAnswer.answers, s.afterAnswer.draws, exec_faSendMessageNoUpdate ha f,
    s.answer_spec _⟩

/-- Settles O24: FA.BEGIN and FA.SETNUMBUFFERS by their own guards, the eight others by the guard `afterBegin`. -/
theorem adapterRefusalsByLifecycle : Obligations.AdapterRefusalsByLifecycle := by
  refine ⟨fun s p b => exec_faBegin_begun, fun s ha => ?notBegun, fun s rx tx => exec_faSetNumBuffers_badCapacity,
    fun s p b => exec_faBegin_badCapacity⟩
  case notBegun =>
    have hrefused := fun k => afterBegin_not_begun k ha
    exact ⟨hrefused _, hrefused _, fun _ _ _ _ _ => hrefused _, fun _ => hrefused _, hrefused _, hrefused _, hrefused _,
      hrefused _⟩

/-- Settles O30: before begin the one register write, after it the idle branch. -/
theorem faSetNumBuffersConfiguresBeforeBegin : Obligations.FaSetNumBuffersConfiguresBeforeBegin :=
  ⟨fun _ _ _ => exec_faSetNumBuffers, fun _ _ _ => exec_faSetNumBuffers_begun⟩

/-- Settles O31: none of the five has a guard, so each is its one `report`. -/
theorem faOperationsLegalInEveryState : Obligations.FaOperationsLegalInEveryState := fun _ _ => ⟨rfl, rfl, rfl, rfl, rfl⟩

end Sys2Proof.Machine

/-! PROOFS. The statements of 60_exceptions.md: what each event does, before the callback is registered and after, and that an
accepted operation has a step exactly where it is admitted. -/

namespace Sys2Proof.Machine

/-- Settles O33: after begin the event is a put of the translated frame, register by register as in RB.PUT. -/
theorem evRxCompletePutsTranslatedFrame : Obligations.EvRxCompletePutsTranslatedFrame := by
  intro s rb n ha hrb h
  refine ⟨Memory.write rb.slots rb.head (fromNative n), fromNative n, rfl, rfl, rfl, rfl, getElem_zeroFill n.dlc n.data,
    ?next, Memory.wf_write _ _ h.slots_wf, Memory.read_write_self _ _ _, fun i hi => Memory.read_write_ne _ _ hi⟩
  case next =>
    rw [exec_evRxComplete n ha hrb, h.put_eq (fromNative n)]
    rfl

section Events

variable {s : State} {i : Instr}

/-- Every event but receive-complete is reported and not handled, registered or not (R238 to R248). -/
theorem exec_reportedEvent (hi : unitOf (opcodeOf i) = 2) (hrx : ∀ n, i ≠ .evRxComplete n) :
    exec i s = .next (s.report none) := by
  cases i with
  | evRxComplete n => exact absurd rfl (hrx n)
  | evTxComplete | evErrWarning | evErrPassive | evErrBusOff | evBusRecovery | evMailboxOverrun | evBusLock | evChannelError
  | evTxAbort | evGlobalError | evFifoEmpty => exact ignoreEvent_eq s
  | _ => simp [opcodeOf, unitOf] at hi

/-- An event with no callback registered is dropped (R236 (a); log 10). -/
theorem exec_event_unregistered (hi : unitOf (opcodeOf i) = 2) (ha : s.allocated = false) :
    exec i s = .next (s.report none) := by
  by_cases hrx : ∃ n, i = .evRxComplete n
  · obtain ⟨n, rfl⟩ := hrx
    exact deliver_unregistered _ ha
  · exact exec_reportedEvent hi (not_exists.1 hrx)

end Events

/-- Settles O34: none of the eleven has an operand, so its word decodes by the round trip, and none is receive-complete. -/
theorem reportedEventsChangeNoState : Obligations.ReportedEventsChangeNoState := by
  intro c s i op h
  have hreported : encode c i = { op := op, arg := 0 } ∧ i.wellFormed c = true ∧ unitOf (opcodeOf i) = 2 ∧
      ∀ n, i ≠ .evRxComplete n := by
    simp only [List.mem_cons, Prod.mk.injEq, List.not_mem_nil, or_false] at h
    rcases h with ⟨rfl, rfl⟩ | ⟨rfl, rfl⟩ | ⟨rfl, rfl⟩ | ⟨rfl, rfl⟩ | ⟨rfl, rfl⟩ | ⟨rfl, rfl⟩ | ⟨rfl, rfl⟩ | ⟨rfl, rfl⟩ |
      ⟨rfl, rfl⟩ | ⟨rfl, rfl⟩ | ⟨rfl, rfl⟩
    all_goals exact ⟨rfl, rfl, rfl, nofun⟩
  obtain ⟨hword, hwf, hunit, hrx⟩ := hreported
  exact ⟨hword, hword ▸ decode_encode hwf, exec_reportedEvent hunit hrx⟩

/-- Settles O35: `deliver` drops receive-complete, and no other event is handled at all. -/
theorem eventBeforeRegistrationHasNoEffect : Obligations.EventBeforeRegistrationHasNoEffect := fun _ _ ha hi =>
  exec_event_unregistered hi ha

section Admission

variable {s : State} {a : Agent} {op : Opcode} {i : Instr}

/-- RB.* is accepted with RB used alone only (30_encoding.md R100, R113). -/
theorem accepts_rbUnit {d : Deployment} (h : accepts (portOf d a) op = true) (hop : unitOf op = 0) :
    d = .ringBufferAlone := by
  cases d with
  | ringBufferAlone => rfl
  | composed => cases a <;> simp [portOf, accepts, hop] at h

/-- There is a ring buffer wherever an operation on it is accepted, and after begin. -/
theorem State.Inv.exists_rb (h : s.Inv) (ha : accepts (portOf s.deployment a) op = true)
    (hs : unitOf op = 0 ∨ s.allocated = true) : ∃ rb, s.rb = some rb := by
  rw [← Option.isSome_iff_exists]
  cases hd : s.deployment with
  | ringBufferAlone => exact (h.alone_constructed hd).1
  | composed =>
    rw [← h.composed_allocated hd]
    exact hs.resolve_left fun hop => by cases hd.symm.trans (accepts_rbUnit ha hop)

/-- What is not admitted is refused: a begin, a change of capacity, or one of the eight that need begin (U1, U2, U3). -/
theorem exec_not_admitted (h : admitted s i = false) : ∃ r, exec i s = .refused r := by
  cases i with
  | faBegin p b =>
    cases ha : s.allocated with
    | true => exact ⟨_, exec_faBegin_begun ha⟩
    | false =>
      have hcap : 1 ≤ s.rxcap → s.config.capMax < s.rxcap := by simpa [admitted, ha] using h
      exact ⟨_, exec_faBegin_badCapacity ha (by omega)⟩
  | faSetNumBuffers rx tx =>
    obtain ⟨ha, hcap⟩ : s.allocated = false ∧ (1 ≤ rx → s.config.capMax < rx) := by simpa [admitted] using h
    exact ⟨_, exec_faSetNumBuffers_badCapacity ha (by omega)⟩
  | faAvailable | faGetNextMessage | faSendMessage | faSendMessageNoUpdate | faPuts | faGets | faOverflows | faHwm =>
    exact ⟨_, afterBegin_not_begun _ h⟩
  | _ => cases h

/-- What is admitted answers a next state, given the ring buffer that RB.* and every operation after begin find. -/
theorem exec_admitted (hring : unitOf (opcodeOf i) = 0 ∨ s.allocated = true → ∃ rb, s.rb = some rb)
    (h : admitted s i = true) : ∃ t, exec i s = .next t := by
  by_cases hi : unitOf (opcodeOf i) = 0
  · obtain ⟨rb, hrb⟩ := hring (.inl hi)
    obtain ⟨r, hr⟩ := exec_rbUnit hi hrb
    exact ⟨_, hr⟩
  cases i with
  | faBegin p b =>
    obtain ⟨⟨ha, h1⟩, h2⟩ : (s.allocated = false ∧ 1 ≤ s.rxcap) ∧ s.rxcap ≤ s.config.capMax := by simpa [admitted] using h
    exact ⟨_, exec_faBegin p b ha h1 h2⟩
  | faSetNumBuffers rx tx =>
    cases ha : s.allocated with
    | true => exact ⟨_, exec_faSetNumBuffers_begun ha⟩
    | false =>
      obtain ⟨h1, h2⟩ : 1 ≤ rx ∧ rx ≤ s.config.capMax := by simpa [admitted, ha] using h
      exact ⟨_, exec_faSetNumBuffers ha h1 h2⟩
  | faAvailable | faPuts | faGets | faOverflows | faHwm =>
    obtain ⟨rb, hrb⟩ := hring (.inr h)
    exact ⟨_, afterBegin_answerQuery h hrb _⟩
  | faGetNextMessage =>
    obtain ⟨rb, hrb⟩ := hring (.inr h)
    exact ⟨_, exec_faGetNextMessage h hrb⟩
  | faSendMessage f r e v p => exact ⟨_, exec_faSendMessage h f r e v p⟩
  | faSendMessageNoUpdate f => exact ⟨_, exec_faSendMessageNoUpdate h f⟩
  | faSetDebug | faReset | faPrintStatus | faSent | faReceived => exact ⟨_, rfl⟩
  | evRxComplete n =>
    cases ha : s.allocated with
    | true =>
      obtain ⟨rb, hrb⟩ := hring (.inr ha)
      exact ⟨_, exec_evRxComplete n ha hrb⟩
    | false => exact ⟨_, deliver_unregistered _ ha⟩
  | evTxComplete | evErrWarning | evErrPassive | evErrBusOff | evBusRecovery | evMailboxOverrun | evBusLock | evChannelError
  | evTxAbort | evGlobalError | evFifoEmpty => exact ⟨_, exec_reportedEvent rfl nofun⟩
  | _ => simp [opcodeOf, unitOf] at hi

end Admission

/-- Settles O47: there is no fault to stop with; what is not admitted is refused, and the invariants give what is admitted the
ring buffer it needs. -/
theorem acceptedOperationsNeverBlock : Obligations.AcceptedOperationsNeverBlock := by
  refine ⟨fun _ r => (nomatch r), fun s a i hI ha => ⟨fun ⟨t, ht⟩ => ?admitted, exec_admitted (hI.exists_rb ha)⟩⟩
  case admitted =>
    by_contra hn
    obtain ⟨r, hr⟩ := exec_not_admitted (eq_false_of_ne_true hn)
    cases hr.symm.trans ht

end Sys2Proof.Machine

/-! PROOFS. The statements of 70_reset_and_hazards.md: the values reset and a construction leave, and what any number of producer
steps keep of what the consumer has read. -/

namespace Sys2Proof.Machine

section Construction

variable {s t : State} {p : Bool} {b : Nat}

/-- R270, for a ring buffer: its capacity, every register 0 and every slot without a value. -/
theorem RingBuffer.construct_values (cap : Nat) :
    (construct cap).cap = cap ∧ (construct cap).head = 0 ∧ (construct cap).tail = 0 ∧ (construct cap).full = false ∧
      (construct cap).size = 0 ∧ (construct cap).puts = 0 ∧ (construct cap).gets = 0 ∧ (construct cap).overflows = 0 ∧
      (construct cap).hwm = 0 ∧ ∀ i, Memory.read (construct cap).slots i = none :=
  ⟨rfl, rfl, rfl, rfl, rfl, rfl, rfl, rfl, rfl, fun _ => rfl⟩

/-- A begin that is not refused constructs the ring buffer at the configured capacity (43_frame_adapter.md R200). -/
theorem exec_faBegin_constructs (h : exec (.faBegin p b) s = .next t) : t.rb = some (RingBuffer.construct s.rxcap) := by
  cases ha : s.allocated with
  | true => cases (exec_faBegin_begun ha).symm.trans h
  | false =>
    by_cases hcap : s.rxcap = 0 ∨ s.config.capMax < s.rxcap
    · cases (exec_faBegin_badCapacity ha hcap).symm.trans h
    · cases (exec_faBegin p b ha (by omega) (by omega)).symm.trans h
      rfl

end Construction

/-- Settles O48: RB alone and FA.BEGIN each construct one and the same new ring buffer; with no callback registered after
reset, every event is dropped. -/
theorem resetLeavesTheStatedValues : Obligations.ResetLeavesTheStatedValues :=
  ⟨fun _ => ⟨rfl, rfl, rfl, rfl, rfl, rfl, rfl, rfl, fun _ hi => exec_event_unregistered hi rfl⟩,
    fun _ cap => ⟨_, rfl, RingBuffer.construct_values cap⟩,
    fun _ _ _ _ h => ⟨_, exec_faBegin_constructs h, RingBuffer.construct_values _⟩, rfl⟩

section ProducerSteps

variable {c : Config} {s : State} {i : Instr} {rb rb' rb'' : RingBuffer} {m n x y z : Nat} {evs : List Instr}

/-- The producer's operations are RB.PUT and the events (60_exceptions.md R251). -/
theorem issuerOf_producer_iff :
    issuerOf (opcodeOf i) = .producer ↔ (∃ f, i = .rbPut f) ∨ unitOf (opcodeOf i) = 2 := by
  rw [← opcodeOf_eq_zero_iff]
  simp [issuerOf, or_iff_not_imp_left]

/-- "The producer only puts" (R281): it leaves the ring buffer or puts one frame, and writes nothing else but the result. -/
theorem exec_producer (hi : issuerOf (opcodeOf i) = .producer) (hrb : s.rb = some rb) :
    ∃ rb' r, exec i s = .next ((s.withRb rb').report r) ∧ (rb' = rb ∨ ∃ f, rb' = rb.put s.config f) := by
  have hsame : s.report none = (s.withRb rb).report none := by rw [State.withRb_self hrb]
  rcases issuerOf_producer_iff.1 hi with ⟨f, rfl⟩ | hevent
  · exact ⟨_, _, exec_rbPut f hrb, .inr ⟨f, rfl⟩⟩
  cases ha : s.allocated with
  | false => exact ⟨rb, none, hsame ▸ exec_event_unregistered hevent ha, .inl rfl⟩
  | true =>
    by_cases hrx : ∃ n, i = .evRxComplete n
    · obtain ⟨n, rfl⟩ := hrx
      exact ⟨_, _, exec_evRxComplete n ha hrb, .inr ⟨_, rfl⟩⟩
    · exact ⟨rb, none, hsame ▸ exec_reportedEvent hevent (not_exists.1 hrx), .inl rfl⟩

/-- From `x` a counter has reached `y` in at most `n` increments, if it cannot have wrapped on the way (00_scope.md R8). -/
def CountsUp (c : Config) (n x y : Nat) : Prop := x + n < 2 ^ c.cntW → x ≤ y ∧ y ≤ x + n

theorem CountsUp.refl (c : Config) (n x : Nat) : CountsUp c n x x := fun _ => ⟨Nat.le_refl x, Nat.le_add_right x n⟩

theorem CountsUp.trans (h : CountsUp c m x y) (h' : CountsUp c n y z) : CountsUp c (m + n) x z := by
  intro hfit
  obtain ⟨hxy, hyx⟩ := h (by omega)
  obtain ⟨hyz, hzy⟩ := h' (by omega)
  exact ⟨by omega, by omega⟩

theorem CountsUp.of_eq_or_cinc (h : y = x ∨ y = cinc c x) : CountsUp c 1 x y := by
  rcases h with rfl | rfl
  · exact .refl c 1 y
  · intro hfit
    have hcinc : cinc c x = x + 1 := Nat.mod_eq_of_lt hfit
    omega

/-- What `n` producer operations keep of a ring buffer (R281). -/
structure RingBuffer.KeptByProducer (c : Config) (n : Nat) (rb rb' : RingBuffer) : Prop where
  inv          : RingBuffer.Inv c rb'
  cap_eq       : rb'.cap = rb.cap
  size_le      : rb.size ≤ rb'.size
  hwm_le       : rb.hwm ≤ rb'.hwm
  gets_eq      : rb'.gets = rb.gets
  puts_up      : CountsUp c n rb.puts rb'.puts
  overflows_up : CountsUp c n rb.overflows rb'.overflows

theorem RingBuffer.Inv.keptByProducer_refl (h : RingBuffer.Inv c rb) (n : Nat) : rb.KeptByProducer c n rb where
  inv := h
  cap_eq := rfl
  size_le := Nat.le_refl _
  hwm_le := Nat.le_refl _
  gets_eq := rfl
  puts_up := .refl c n _
  overflows_up := .refl c n _

theorem RingBuffer.KeptByProducer.trans (h : rb.KeptByProducer c m rb') (h' : rb'.KeptByProducer c n rb'') :
    rb.KeptByProducer c (m + n) rb'' where
  inv := h'.inv
  cap_eq := h'.cap_eq.trans h.cap_eq
  size_le := h.size_le.trans h'.size_le
  hwm_le := h.hwm_le.trans h'.hwm_le
  gets_eq := h'.gets_eq.trans h.gets_eq
  puts_up := h.puts_up.trans h'.puts_up
  overflows_up := h.overflows_up.trans h'.overflows_up

theorem RingBuffer.Inv.keptByProducer_put (h : RingBuffer.Inv c rb) (f : Frame) : rb.KeptByProducer c 1 (rb.put c f) :=
  have ⟨hputs, _, hoverflows, hhwm⟩ := (RingBuffer.Change.put (c := c) (rb := rb) f (.inl rfl)).counters
  { inv := h.put f
    cap_eq := rfl
    size_le := h.size_le_put f
    hwm_le := hhwm
    gets_eq := rfl
    puts_up := .of_eq_or_cinc hputs
    overflows_up := .of_eq_or_cinc hoverflows }

/-- The induction over a producer's run: it completes, and each of its operations keeps what the one before it kept. -/
theorem runAll_producer (hrb : s.rb = some rb) (h : RingBuffer.Inv s.config rb)
    (hevs : ∀ i ∈ evs, issuerOf (opcodeOf i) = .producer) :
    ∃ s' rb', runAll evs s = some s' ∧ s'.rb = some rb' ∧ rb.KeptByProducer s.config evs.length rb' := by
  induction evs generalizing s rb with
  | nil => exact ⟨s, rb, rfl, hrb, h.keptByProducer_refl 0⟩
  | cons i is ih =>
    obtain ⟨hi, his⟩ := List.forall_mem_cons.1 hevs
    obtain ⟨rb₁, r, hexec, hput⟩ := exec_producer hi hrb
    have hkept : rb.KeptByProducer s.config 1 rb₁ := by
      rcases hput with rfl | ⟨f, rfl⟩
      · exact h.keptByProducer_refl 1
      · exact h.keptByProducer_put f
    obtain ⟨s', rb', hrun, hrb', hrest⟩ := ih (s := (s.withRb rb₁).report r) rfl hkept.inv his
    refine ⟨s', rb', ?_, hrb', ?_⟩
    · simpa only [runAll, hexec] using hrun
    · rw [List.length_cons, Nat.add_comm]
      exact hkept.trans hrest

end ProducerSteps

/-- Settles O36: under the invariants both predicates are bounds of the size, which no producer operation lowers. -/
theorem producerStepsKeepTrueAnswersTrue : Obligations.ProducerStepsKeepTrueAnswersTrue := by
  intro s rb evs hrb h hevs
  obtain ⟨s', rb', hrun, hrb', hkept⟩ := runAll_producer hrb h hevs
  have hI := hkept.inv
  have hcap := hkept.cap_eq
  have hsize := hkept.size_le
  refine ⟨s', rb', hrun, hrb', fun hyes => ?available, fun hyes => ?full, hsize, by omega, hkept.hwm_le, hkept.gets_eq,
    fun hfit => (hkept.puts_up hfit).1, fun hfit => (hkept.overflows_up hfit).1⟩
  case available => exact hI.available_iff.2 (Nat.lt_of_lt_of_le (h.available_iff.1 hyes) hsize)
  case full =>
    have hfull := h.full_iff.1 hyes
    have hle := hI.size_le
    exact hI.full_iff.2 (by omega)

end Sys2Proof.Machine
